-- ==== Sys2Proof/Word.lean ====
section
/-! DEFINITION. The value types of the machine (00_scope.md R5, R8): unsigned bit vectors of fixed width. -/

namespace Sys2Proof

/-- A byte of memory (20_memory.md R40). -/
abbrev Byte := BitVec 8

/-- A 32-bit value: an instruction word (30_encoding.md R60) or a loaded word (20_memory.md R46). -/
abbrev Word := BitVec 32

/-- A 32-bit memory address, also the width of the program counter (20_memory.md R40, 10_state.md R24). -/
abbrev Addr := BitVec 32

/-- The contents of a general register, and an effective address (10_state.md R20, 40_load_word_and_zero.md R90). -/
abbrev Dword := BitVec 64

end Sys2Proof
end

