-- ==== Sys2Proof/Syntax.lean ====
section
/-! DEFINITION. The four instructions of spec/opcode_table.json as syntax (00_scope.md R3). -/

namespace Sys2Proof

/-- A 5-bit register field: `i` names `r<i>` (10_state.md R20). -/
abbrev Reg := Fin 32

/-- The 16-bit displacement field `D` of the D form, kept as its bits; it is signed (30_encoding.md R64). -/
abbrev Disp := BitVec 16

/-- One constructor per row of the opcode table, in the table's order. `rt`, `ra`, `rb` are the fields `RT`, `RA`,
`RB`; which of them names a register and which may be the literal zero is said by the meanings (30_encoding.md R65). -/
inductive Instr where
  /-- `lwz RT, d(RA)`: Load Word and Zero, D form (40_load_word_and_zero.md R91). -/
  | lwz (rt ra : Reg) (d : Disp)
  /-- `lwzu RT, d(RA)`: Load Word and Zero with Update, D form (R92). -/
  | lwzu (rt ra : Reg) (d : Disp)
  /-- `lwzux RT, RA, RB`: Load Word and Zero with Update Indexed, X form (R93). -/
  | lwzux (rt ra rb : Reg)
  /-- `lwzx RT, RA, RB`: Load Word and Zero Indexed, X form (R94). -/
  | lwzx (rt ra rb : Reg)
deriving DecidableEq, Repr

end Sys2Proof
end

