-- ==== Sys2Proof/WellFormed.lean ====
section
/-! DEFINITION. Which instructions are valid forms (30_encoding.md R69; 40_load_word_and_zero.md R90, last column). -/

namespace Sys2Proof

/-- The update forms require `RA ≠ 0` and `RA ≠ RT`; `lwz` and `lwzx` have no invalid form (30_encoding.md R69). -/
def Instr.wellFormed : Instr → Bool
  | .lwz _ _ _ => true
  | .lwzu rt ra _ => decide (ra ≠ 0) && decide (ra ≠ rt)
  | .lwzux rt ra _ => decide (ra ≠ 0) && decide (ra ≠ rt)
  | .lwzx _ _ _ => true

end Sys2Proof
end

