-- ==== Sys2Proof/Decode.lean ====
section
/-! DEFINITION. The byte order of a word, the fields of an instruction word, the decoder and the encoder
(20_memory.md R43, R44; 30_encoding.md R60 to R70). -/

namespace Sys2Proof

/-- Four bytes at ascending addresses as one word: the byte at the lowest address is the most significant
(20_memory.md R43 (3); for fetch by decision, R55). -/
def beWord (b0 b1 b2 b3 : Byte) : Word := b0 ++ b1 ++ b2 ++ b3

/-- The byte that address `a + i` holds of a word stored at `a`: bits `31 - 8 i` down to `24 - 8 i` (20_memory.md R44). -/
def wordByte (w : Word) (i : Nat) : Byte := w.extractLsb' (24 - 8 * i) 8

/-- The field `insn{a..b}`, bits numbered from 0 at the most significant end (00_scope.md R7). -/
def bitField (insn : Word) (a b : Nat) : Nat := insn.toNat / 2 ^ (31 - b) % 2 ^ (b - a + 1)

/-- `OPCD`, the primary opcode: `insn{0..5}` (30_encoding.md R61, R62). -/
def fieldOPCD (insn : Word) : Nat := bitField insn 0 5

/-- `RT`: `insn{6..10}` (30_encoding.md R61, R62). -/
def fieldRT (insn : Word) : Reg := Fin.ofNat 32 (bitField insn 6 10)

/-- `RA`: `insn{11..15}` (30_encoding.md R61, R62). -/
def fieldRA (insn : Word) : Reg := Fin.ofNat 32 (bitField insn 11 15)

/-- `RB` of the X form: `insn{16..20}` (30_encoding.md R62). -/
def fieldRB (insn : Word) : Reg := Fin.ofNat 32 (bitField insn 16 20)

/-- `D` of the D form: `insn{16..31}` (30_encoding.md R61, R64). -/
def fieldD (insn : Word) : Disp := BitVec.ofNat 16 (bitField insn 16 31)

/-- `XO` of the X form: `insn{21..30}`, 10 bits (30_encoding.md R62). -/
def fieldXO (insn : Word) : Nat := bitField insn 21 30

/-- `Rc` of the X form: `insn{31}` (30_encoding.md R62). -/
def fieldRc (insn : Word) : Nat := bitField insn 31 31

/-- Why a word is no instruction of this spec (30_encoding.md R67). -/
inductive DecodeError where
  /-- The word matches no row of the opcode table (R70). -/
  | notInSpec
  /-- `OPCD = 31`, `XO` 23 or 55, and `Rc = 1` (R68). -/
  | reservedRc
  /-- An update form with `RA = 0` or `RA = RT` (R69). -/
  | invalidForm
deriving DecidableEq, Repr

/-- An instruction in a valid form, or the refusal of the invalid form (30_encoding.md R69). -/
def checkForm (i : Instr) : Except DecodeError Instr :=
  if i.wellFormed then .ok i else .error .invalidForm

/-- Decoding, total on the 32-bit words, its tests in the order of 30_encoding.md R67. -/
def decodeWord (insn : Word) : Except DecodeError Instr :=
  if fieldOPCD insn = 32 then
    checkForm (.lwz (fieldRT insn) (fieldRA insn) (fieldD insn))
  else if fieldOPCD insn = 33 then
    checkForm (.lwzu (fieldRT insn) (fieldRA insn) (fieldD insn))
  else if fieldOPCD insn = 31 ∧ fieldXO insn = 23 then
    if fieldRc insn = 1 then .error .reservedRc
    else checkForm (.lwzx (fieldRT insn) (fieldRA insn) (fieldRB insn))
  else if fieldOPCD insn = 31 ∧ fieldXO insn = 55 then
    if fieldRc insn = 1 then .error .reservedRc
    else checkForm (.lwzux (fieldRT insn) (fieldRA insn) (fieldRB insn))
  else .error .notInSpec

/-- Decoding of the four bytes a decoder reads, at ascending addresses (30_encoding.md R60, 20_memory.md R55). -/
def decodeBytes (b0 b1 b2 b3 : Byte) : Except DecodeError Instr := decodeWord (beWord b0 b1 b2 b3)

/-- A word of the D form from its fields (30_encoding.md R63). -/
def encodeD (opcd : Nat) (rt ra : Reg) (d : Disp) : Word :=
  BitVec.ofNat 32 (opcd * 2 ^ 26 + rt.val * 2 ^ 21 + ra.val * 2 ^ 16 + d.toNat)

/-- A word of the X form from its fields (30_encoding.md R63). -/
def encodeX (opcd : Nat) (rt ra rb : Reg) (xo rc : Nat) : Word :=
  BitVec.ofNat 32 (opcd * 2 ^ 26 + rt.val * 2 ^ 21 + ra.val * 2 ^ 16 + rb.val * 2 ^ 11 + xo * 2 + rc)

/-- The word of an instruction, from the opcode map (30_encoding.md R66). -/
def encode : Instr → Word
  | .lwz rt ra d => encodeD 32 rt ra d
  | .lwzu rt ra d => encodeD 33 rt ra d
  | .lwzux rt ra rb => encodeX 31 rt ra rb 55 0
  | .lwzx rt ra rb => encodeX 31 rt ra rb 23 0

/-- The `mask` and `match` columns of the opcode map, a row per instruction in the table's order (30_encoding.md R66; the
`Rc` bit in the masks of the X form rows is decision D10, log entry 14). -/
def opcodeMap : List (Word × Word) :=
  [(0xFC000000#32, 0x80000000#32), (0xFC000000#32, 0x84000000#32),
   (0xFC0007FF#32, 0x7C00006E#32), (0xFC0007FF#32, 0x7C00002E#32)]

/-- For each row of the opcode map, whether the word is of that row: `w AND mask = match` (30_encoding.md R66). -/
def rowsMatched (insn : Word) : List Bool := opcodeMap.map fun row => decide (insn &&& row.1 = row.2)

/-- The word of an instruction whose bits, numbered as spec/opcode_table.json numbers them, are `w`: the bits above
`nbits` are 0, and an instruction has 32 bits (30_encoding.md R60; log entry 21). -/
def tableWord (nbits w : Nat) : Word := BitVec.ofNat 32 (w % 2 ^ nbits)

/-- The instruction the decoder reads from the bytes of a table word, laid out as the hardware stores them: the most
significant byte at the lowest address (20_memory.md R55). -/
def decodeTableWord (nbits w : Nat) : Option Instr :=
  let insn := tableWord nbits w
  match decodeBytes (wordByte insn 0) (wordByte insn 1) (wordByte insn 2) (wordByte insn 3) with
  | .ok i => some i
  | .error _ => none

end Sys2Proof
end

