-- ==== Sys2Proof/Config.lean ====
section
/-! DEFINITION. The free value of the model, and the values the reset state takes where the spec gives none. -/

namespace Sys2Proof

/-- FREE VALUE (log entry 7). Under `MEM_MODE = open` every data byte read is answered by an unconstrained oracle
(20_memory.md R46, R51); the answer to the `n`th such read is this constant, which has no body, applied to `n`. A
statement that mentions it holds for every value of it. -/
opaque Config.oracleByte : Nat → Byte

/-- The highest address at which four bytes fit below `2 ^ 32` (20_memory.md R43 (1), 10_state.md R24 (c)). -/
def Config.lastWordAddr : Addr := 0xFFFFFFFC#32

/-- DESIGN CHOICE, unsafe (log entry 3): the spec gives no reset value for a general register (10_state.md R31). -/
def Config.resetGpr : Dword := 0#64

/-- DESIGN CHOICE, unsafe (log entry 4): the spec gives no reset vector; `START_PC` is a launch argument, a multiple
of 4 (10_state.md R31). -/
def Config.resetPc : Addr := 0#32

/-- DESIGN CHOICE, unsafe (log entry 5): `END_PC` is a launch argument, a multiple of 4 (70_reset_and_hazards.md
R132); reset takes the largest that premise P1 of R131 allows. -/
def Config.resetEndPc : Addr := 0xFFFFFFFC#32

end Sys2Proof
end

