-- ==== Sys2Proof/Machine/State.lean ====
section
/-! DEFINITION. The state of the machine as plain data, the reasons a step can stop, and the state after reset
(10_state.md R20 to R31; 60_exceptions.md R111). -/

namespace Sys2Proof.Machine

/-- Memory: pairs of an address and its byte. The addresses it lists are the admitted set `Mapped` of the launch
(20_memory.md R40, R48; log entries 1 and 2); the canonical form is `Memory.wf`. -/
abbrev Memory := List Host.Cell

/-- What an unlisted address reads as: no value, since it is outside `Mapped` (20_memory.md R48; log entry 2). -/
def Memory.unlisted : Option Byte := none

/-- The canonical form of a memory: addresses strictly rising, each below `2 ^ 32` (20_memory.md R40). Every listed
entry holds a byte, so none equals what an unlisted address reads as. -/
abbrev Memory.wf (m : Memory) : Prop :=
  m.Pairwise (fun c e => c.1 < e.1) ∧ ∀ c ∈ m, c.1 < 2 ^ 32

/-- `MEM_MODE` (00_scope.md R6). -/
inductive MemMode where
  /-- Memory is a function that nothing changes during the run. -/
  | closedWorld
  /-- Every data byte read inside `Mapped` is answered by the oracle (20_memory.md R46). -/
  | openWorld
deriving DecidableEq, Repr

/-- The state: general registers, program counter and memory (10_state.md R20, R23, R28), the launch arguments, which
no instruction changes (70_reset_and_hazards.md R130), and the model's own position in the oracle's answers. -/
structure State where
  /-- `r0` to `r31` (10_state.md R20); none is hardwired (R21). -/
  gprs : Vector Dword 32
  /-- The program counter (10_state.md R23). -/
  pc : Addr
  /-- Memory, and by the addresses it lists the set `Mapped` (10_state.md R28, 20_memory.md R48). -/
  mem : Memory
  /-- `END_PC`, where the run is over: a launch argument (70_reset_and_hazards.md R132). -/
  endPc : Addr
  /-- `MEM_MODE`: a launch argument (00_scope.md R6). -/
  memMode : MemMode
  /-- The model's own: how many oracle bytes have been answered (log entry 7). -/
  oracleNext : Nat
deriving DecidableEq, Repr

/-- Reasons for the host's outcome `fault`: the step relation has no step from the state. -/
inductive Fault where
  /-- `stuck(unmapped, a)` (20_memory.md R48): raised by a fetch (`a` is `pc`) or a data read at `a` that touches a
  byte outside `Mapped`. Safe: the chip's behaviour there is not in the spec. -/
  | unmapped (a : Addr)
  /-- `pc = END_PC`: the run is over and the state is final (70_reset_and_hazards.md R132). Raised by the fetch,
  before anything else is tested (60_exceptions.md R113 (0)). Safe: nothing is said of what follows. -/
  | runOver
deriving DecidableEq, Repr

/-- Reasons for the host's outcome `refused`: the spec gives the step no meaning. -/
inductive Refusal where
  /-- An instruction without a meaning yet, answered only by an arm of `exec`. Safe. No arm does so. -/
  | notModelled (mnemonic : String)
  /-- `refuse(pc_misaligned)`: raised by the fetch when `pc` is not a multiple of 4 (10_state.md R24 (b)). Safe. -/
  | pcMisaligned
  /-- `refuse(pc_overflow)`: raised by the fetch when `pc = 0xFFFF_FFFC` (10_state.md R24 (c)). Safe. -/
  | pcOverflow
  /-- `refuse(not_in_spec)`: raised by decoding a word that matches no row of the table (30_encoding.md R70). Safe. -/
  | notInSpec
  /-- `refuse(reserved_rc)`: raised by decoding `lwzx` or `lwzux` with `Rc = 1` (30_encoding.md R68). Safe. -/
  | reservedRc
  /-- `refuse(invalid_form)`: raised by decoding `lwzu` or `lwzux` with `RA = 0` or `RA = RT`, and by their meanings
  on such operands (30_encoding.md R69). Safe: "the result is undefined". -/
  | invalidForm
  /-- `refuse(access_wraps_address_space)`: raised by a data read above `0xFFFF_FFFC` (20_memory.md R47). Safe. -/
  | accessWrapsAddressSpace
deriving DecidableEq, Repr

/-- The machine after reset. The spec models no reset and leaves every component unspecified (70_reset_and_hazards.md
R130); `MEM_MODE` has its default (00_scope.md R6), the rest are the values log entries 2 to 7 name. -/
def State.reset : State where
  gprs := Vector.replicate 32 Config.resetGpr
  pc := Config.resetPc
  mem := []
  endPc := Config.resetEndPc
  memMode := .closedWorld
  oracleNext := 0

end Sys2Proof.Machine
end

