-- ==== Sys2Proof/Machine/Ops.lean ====
section
/-! DEFINITION. The named operations over registers, program counter and memory (10_state.md R20 to R24;
20_memory.md R40 to R51). The spec defines no exception (60_exceptions.md R110, R114), so there is no operation for
taking one or returning from one. -/

namespace Sys2Proof.Machine

/-- First `o`, and on its result `k`; a stop of `o` is the stop of the whole (60_exceptions.md R113: the first
condition met decides the outcome). -/
def andThen {α β : Type} (o : Host.Outcome α Fault Refusal) (k : α → Host.Outcome β Fault Refusal) :
    Host.Outcome β Fault Refusal :=
  match o with
  | .next a => k a
  | .fault r => .fault r
  | .refused r => .refused r

/-- `x[i]`: read of a general register, `r0` like any other (00_scope.md R9, 10_state.md R21). -/
def State.gpr (s : State) (r : Reg) : Dword := s.gprs[r.val]

/-- `x[i] <- v`: write of a general register, all 64 bits (00_scope.md R9, 10_state.md R21). -/
def State.setGpr (s : State) (r : Reg) (v : Dword) : State :=
  { s with gprs := s.gprs.set r.val v }

/-- `pc <- pc + 4` (10_state.md R23). A step never reaches the one multiple of 4 where the sum would not fit 32 bits:
its fetch refuses there (10_state.md R24 (c); log entry 9). -/
def State.advancePc (s : State) : State := { s with pc := s.pc + 4#32 }

/-- The state after `n` more bytes were answered by the oracle (20_memory.md R46; log entry 7). -/
def State.skipOracle (s : State) (n : Nat) : State := { s with oracleNext := s.oracleNext + n }

/-- The byte at address `a`, none outside `Mapped` (10_state.md R28, 20_memory.md R48). -/
def Memory.read : Memory → Addr → Option Byte
  | [], _ => Memory.unlisted
  | (k, b) :: m, a => if k = a.toNat then some b else Memory.read m a

/-- Placing a byte at an address, which puts the address into `Mapped`: what a launch does, no instruction
(20_memory.md R57, 70_reset_and_hazards.md R136). It keeps the canonical form. -/
def Memory.write : Memory → Addr → Byte → Memory
  | [], a, b => [(a.toNat, b)]
  | (k, c) :: m, a, b =>
    if k < a.toNat then (k, c) :: Memory.write m a b
    else if k = a.toNat then (k, b) :: m
    else (a.toNat, b) :: (k, c) :: m

/-- Placing the four bytes of a word, the most significant at the lowest address (20_memory.md R43, R55). -/
def Memory.writeWord (m : Memory) (a : Addr) (w : Word) : Memory :=
  Memory.write (Memory.write (Memory.write (Memory.write m a (wordByte w 0)) (a + 1#32) (wordByte w 1))
    (a + 2#32) (wordByte w 2)) (a + 3#32) (wordByte w 3)

/-- `MemRead(a, 4)` over memory as it stands, its tests in the order of 20_memory.md R43: past the top of the address
space, a byte outside `Mapped`, else the big-endian word. No alignment is asked for (R45). -/
def memRead (m : Memory) (a : Addr) : Host.Outcome Word Fault Refusal :=
  if Config.lastWordAddr.toNat < a.toNat then .refused .accessWrapsAddressSpace
  else
    match Memory.read m a, Memory.read m (a + 1#32), Memory.read m (a + 2#32), Memory.read m (a + 3#32) with
    | some b0, some b1, some b2, some b3 => .next (beWord b0 b1 b2 b3)
    | _, _, _, _ => .fault (.unmapped a)

/-- Four independent oracle bytes, the next ones, as a word (20_memory.md R46; 95_test_vectors.md 2.4). -/
def State.oracleWord (s : State) : Word :=
  beWord (Config.oracleByte s.oracleNext) (Config.oracleByte (s.oracleNext + 1))
    (Config.oracleByte (s.oracleNext + 2)) (Config.oracleByte (s.oracleNext + 3))

/-- `MemRead(a, 4)` for data. Closed world: the word memory holds. Open world: the same two stops, then the oracle's
bytes in place of memory's (20_memory.md R43 last sentence, R46, R51). A read has no side effect (R49); only the
model's own oracle position advances. -/
def dataRead (s : State) (a : Addr) : Host.Outcome (Word × State) Fault Refusal :=
  andThen (memRead s.mem a) fun w =>
    match s.memMode with
    | .closedWorld => .next (w, s)
    | .openWorld => .next (s.oracleWord, s.skipOracle 4)

end Sys2Proof.Machine
end

