-- ==== Sys2Proof/Machine/Operands.lean ====
section
/-! DEFINITION. The operand forms and the effective address (30_encoding.md R64, R65; 20_memory.md R41;
40_load_word_and_zero.md R90, R95, R96). -/

namespace Sys2Proof.Machine

/-- The `RA0` form: field value 0 is the literal 64-bit zero, not `r0` (30_encoding.md R65, 10_state.md R21). -/
def base0 (s : State) (ra : Reg) : Dword := if ra = 0 then 0#64 else s.gpr ra

/-- The displacement, sign-extended to 64 bits, neither scaled nor shifted (30_encoding.md R64). -/
def dispOffset (d : Disp) : Dword := d.signExtend 64

/-- The memory address of an access: the low 32 bits of the effective address, the high half ignored without a check
(20_memory.md R41). -/
def memAddr (ea : Dword) : Addr := ea.setWidth 32

/-- The loaded word zero-extended to the whole register (40_load_word_and_zero.md R96). -/
def zeroExtend (w : Word) : Dword := w.setWidth 64

/-- What an update form writes into `RA`: all 64 bits of the effective address, `UPDATE_RA_WIDTH = 64`
(90_conflicts.md C1; log entry 12). -/
def updateValue (ea : Dword) : Dword := ea

/-- `EA` of `lwz`: the `RA0` base plus the displacement, modulo `2 ^ 64` (40_load_word_and_zero.md R91, R95). -/
def eaLwz (s : State) (ra : Reg) (d : Disp) : Dword := base0 s ra + dispOffset d

/-- `EA` of `lwzu`: the register base plus the displacement, modulo `2 ^ 64` (40_load_word_and_zero.md R92, R95). -/
def eaLwzu (s : State) (ra : Reg) (d : Disp) : Dword := s.gpr ra + dispOffset d

/-- `EA` of `lwzux`: the register base plus the index, modulo `2 ^ 64` (40_load_word_and_zero.md R93, R95). -/
def eaLwzux (s : State) (ra rb : Reg) : Dword := s.gpr ra + s.gpr rb

/-- `EA` of `lwzx`: the `RA0` base plus the index, modulo `2 ^ 64` (40_load_word_and_zero.md R94, R95). -/
def eaLwzx (s : State) (ra rb : Reg) : Dword := base0 s ra + s.gpr rb

end Sys2Proof.Machine
end

