-- ==== Sys2Proof/Machine/LoadWordZero.lean ====
section
/-! DEFINITION. The meanings of `lwz`, `lwzu`, `lwzux` and `lwzx` (40_load_word_and_zero.md R90 to R97). -/

namespace Sys2Proof.Machine

/-- What the four have in common, without write-back (40_load_word_and_zero.md R90): read the word at `EA[31:0]`, write
it zero-extended to `RT`, advance `pc`. A stop of the read leaves no state (R97). -/
def loadZero (rt : Reg) (ea : Dword) (s : State) : Host.Outcome State Fault Refusal :=
  andThen (dataRead s (memAddr ea)) fun p => .next (p.2.setGpr rt (zeroExtend p.1)).advancePc

/-- The same with `EA` written back to `RA` after the load (40_load_word_and_zero.md R90, R97). The invalid forms are
refused here as they are by the decoder, and no value is chosen for them (30_encoding.md R69; log entry 13). -/
def loadZeroUpdate (rt ra : Reg) (ea : Dword) (s : State) : Host.Outcome State Fault Refusal :=
  if ra = 0 ∨ ra = rt then .refused .invalidForm
  else
    andThen (dataRead s (memAddr ea)) fun p =>
      .next ((p.2.setGpr rt (zeroExtend p.1)).setGpr ra (updateValue ea)).advancePc

/-- `lwz RT, d(RA)` (40_load_word_and_zero.md R91). -/
def execLwz (rt ra : Reg) (d : Disp) (s : State) : Host.Outcome State Fault Refusal :=
  loadZero rt (eaLwz s ra d) s

/-- `lwzu RT, d(RA)` (40_load_word_and_zero.md R92). -/
def execLwzu (rt ra : Reg) (d : Disp) (s : State) : Host.Outcome State Fault Refusal :=
  loadZeroUpdate rt ra (eaLwzu s ra d) s

/-- `lwzux RT, RA, RB` (40_load_word_and_zero.md R93). -/
def execLwzux (rt ra rb : Reg) (s : State) : Host.Outcome State Fault Refusal :=
  loadZeroUpdate rt ra (eaLwzux s ra rb) s

/-- `lwzx RT, RA, RB` (40_load_word_and_zero.md R94). -/
def execLwzx (rt ra rb : Reg) (s : State) : Host.Outcome State Fault Refusal :=
  loadZero rt (eaLwzx s ra rb) s

end Sys2Proof.Machine
end

