-- ==== Sys2Proof/Machine/Dispatch.lean ====
section
/-! DEFINITION. One arm per instruction of spec/opcode_table.json. -/

namespace Sys2Proof.Machine

def exec (i : Instr) (s : State) : Host.Outcome State Fault Refusal :=
  match i with
  | .lwz rt ra d => Sys2Proof.Machine.execLwz rt ra d s
  | .lwzu rt ra d => Sys2Proof.Machine.execLwzu rt ra d s
  | .lwzux rt ra rb => Sys2Proof.Machine.execLwzux rt ra rb s
  | .lwzx rt ra rb => Sys2Proof.Machine.execLwzx rt ra rb s

end Sys2Proof.Machine
end

