-- ==== Sys2Proof/Machine/Fetch.lean ====
section
/-! DEFINITION. Fetching and decoding the next instruction, with the checks of a step in their order (60_exceptions.md
R113 (0) to (4); 20_memory.md R55, R56), and placing an instruction word where the next fetch reads it. -/

namespace Sys2Proof.Machine

/-- The outcome of a step for a word that does not decode (30_encoding.md R67 to R70). -/
def decodeRefusal : DecodeError → Refusal
  | .notInSpec => .notInSpec
  | .reservedRc => .reservedRc
  | .invalidForm => .invalidForm

/-- Steps (0) to (3) of 60_exceptions.md R113: the end of the run, the two checks of `pc`, and the fetch from memory as
it stands, which the oracle never answers (20_memory.md R55, R56). -/
def fetchWord (s : State) : Host.Outcome Word Fault Refusal :=
  if s.pc = s.endPc then .fault .runOver
  else if s.pc.toNat % 4 ≠ 0 then .refused .pcMisaligned
  else if s.pc = Config.lastWordAddr then .refused .pcOverflow
  else memRead s.mem s.pc

/-- Step (4) of 60_exceptions.md R113: decoding of the fetched word. -/
def decodeFetched (insn : Word) : Host.Outcome Instr Fault Refusal :=
  match decodeWord insn with
  | .ok i => .next i
  | .error e => .refused (decodeRefusal e)

/-- The instruction the next step runs, or why there is none (60_exceptions.md R113 (0) to (4)). -/
def fetchInstr (s : State) : Host.Outcome Instr Fault Refusal := andThen (fetchWord s) decodeFetched

/-- The launch places the instruction word `w` at `pc`, and names an `END_PC` after it where the old one was `pc`
itself (70_reset_and_hazards.md R131 (P1), (P2), R136; log entry 20). -/
def placeInstr (s : State) (w : Word) : State :=
  { s with mem := Memory.writeWord s.mem s.pc w
           endPc := if s.endPc = s.pc then s.pc + 4#32 else s.endPc }

end Sys2Proof.Machine
end

