-- ==== Sys2Proof/Machine/Step.lean ====
section
/-! DEFINITION. One step of the machine (60_exceptions.md R113). -/

namespace Sys2Proof.Machine

/-- One step: fetch and decode, then the instruction's meaning, one instruction per atomic step (00_scope.md R10, R11;
60_exceptions.md R113). -/
def step (s : State) : Host.Outcome State Fault Refusal :=
  andThen (fetchInstr s) fun i => exec i s

/-- `s` with a table word placed where `step` fetches its next instruction (log entry 20). -/
def State.withFetchWord (s : State) (nbits w : Nat) : State := placeInstr s (tableWord nbits w)

end Sys2Proof.Machine
end

