-- ==== Sys2Proof/Safety.lean ====
section
/-! DEFINITION. The terms claims use: which registers and which address an instruction uses, when a word can be read,
the invariant of the machine, runs of several steps, and the launch premises of 70_reset_and_hazards.md R131. -/

namespace Sys2Proof.Machine

/-- The general registers an instruction reads (10_state.md R22): in the `RA0` form none for field value 0. -/
def regsRead : Instr → List Reg
  | .lwz _ ra _ => if ra = 0 then [] else [ra]
  | .lwzu _ ra _ => [ra]
  | .lwzux _ ra rb => [ra, rb]
  | .lwzx _ ra rb => if ra = 0 then [rb] else [ra, rb]

/-- The general registers an instruction writes (10_state.md R22). -/
def regsWritten : Instr → List Reg
  | .lwz rt _ _ => [rt]
  | .lwzu rt ra _ => [rt, ra]
  | .lwzux rt ra _ => [rt, ra]
  | .lwzx rt _ _ => [rt]

/-- The destination field `RT` of an instruction (00_scope.md R12). -/
def destination : Instr → Reg
  | .lwz rt _ _ => rt
  | .lwzu rt _ _ => rt
  | .lwzux rt _ _ => rt
  | .lwzx rt _ _ => rt

/-- The effective address each meaning computes (40_load_word_and_zero.md R90). -/
def effectiveAddr (i : Instr) (s : State) : Dword :=
  match i with
  | .lwz _ ra d => eaLwz s ra d
  | .lwzu _ ra d => eaLwzu s ra d
  | .lwzux _ ra rb => eaLwzux s ra rb
  | .lwzx _ ra rb => eaLwzx s ra rb

/-- The four bytes at `a` lie below `2 ^ 32` and are these (20_memory.md R43). -/
def BytesAt (m : Memory) (a : Addr) (b0 b1 b2 b3 : Byte) : Prop :=
  a.toNat ≤ 0xFFFFFFFC ∧ Memory.read m a = some b0 ∧ Memory.read m (a + 1#32) = some b1 ∧
    Memory.read m (a + 2#32) = some b2 ∧ Memory.read m (a + 3#32) = some b3

/-- The word a data read answers where memory holds these four bytes: their big-endian word in the closed world, the
oracle's next four bytes in the open world (20_memory.md R43, R46). -/
def answeredWord (s : State) (b0 b1 b2 b3 : Byte) : Word :=
  match s.memMode with
  | .closedWorld => beWord b0 b1 b2 b3
  | .openWorld => s.oracleWord

/-- The four bytes at `a` lie below `2 ^ 32` and are in `Mapped` (20_memory.md R43, R48). -/
def WordMapped (m : Memory) (a : Addr) : Prop :=
  a.toNat ≤ 0xFFFFFFFC ∧ ∀ k : Nat, k < 4 → Memory.read m (a + BitVec.ofNat 32 k) ≠ none

/-- Some of the four bytes at `a` is outside `Mapped` (20_memory.md R48). -/
def SomeUnmapped (m : Memory) (a : Addr) : Prop :=
  ∃ k : Nat, k < 4 ∧ Memory.read m (a + BitVec.ofNat 32 k) = none

/-- The invariant: memory in canonical form, `pc` and `END_PC` multiples of 4 (10_state.md R24, R28, R31;
70_reset_and_hazards.md R132). -/
structure Inv (s : State) : Prop where
  memCanonical : Memory.wf s.mem
  pcAligned : s.pc.toNat % 4 = 0
  endAligned : s.endPc.toNat % 4 = 0

/-- `n` steps in a row, stopping at the first that has no next state (00_scope.md R10, R11). -/
def steps : Nat → State → Host.Outcome State Fault Refusal
  | 0, s => .next s
  | n + 1, s => andThen (step s) (steps n)

/-- The premises P1 to P3 on a launch for a run of `n` instructions (70_reset_and_hazards.md R131). P4 to P6 speak of
what the model has not: devices, interrupts and other agents. -/
structure LaunchPremises (n : Nat) (s : State) : Prop where
  /-- P1: the run is aligned and its end is `END_PC`, at most `0xFFFF_FFFC`. -/
  startAligned : s.pc.toNat % 4 = 0
  endFits : s.pc.toNat + 4 * n ≤ 0xFFFFFFFC
  endPcIs : s.endPc.toNat = s.pc.toNat + 4 * n
  /-- P2: the bytes of the run hold `n` words, big-endian, that decode to valid instructions. -/
  wordsDecode : ∀ k < n, ∃ insn i,
    memRead s.mem (s.pc + BitVec.ofNat 32 (4 * k)) = .next insn ∧ decodeWord insn = .ok i
  /-- P3: each executed load finds its four bytes in `Mapped`. -/
  loadsMapped : ∀ k < n, ∀ t insn i, steps k s = .next t → memRead t.mem t.pc = .next insn →
    decodeWord insn = .ok i → WordMapped t.mem (memAddr (effectiveAddr i t))

/-- The machine can take a step (60_exceptions.md R113): no check ends it before it writes. -/
def CanStep (s : State) : Prop :=
  s.pc ≠ s.endPc ∧ s.pc.toNat % 4 = 0 ∧ s.pc.toNat ≠ 0xFFFFFFFC ∧
    ∃ insn i, memRead s.mem s.pc = .next insn ∧ decodeWord insn = .ok i ∧
      WordMapped s.mem (memAddr (effectiveAddr i s))

end Sys2Proof.Machine
end

