-- ==== Sys2Proof/Certificates/Slice0/Obligations.lean ====
section
/-! DEFINITION. The statements for the provers, each formalising rules of spec/. Where a clause rests on a decision of
92_eei_decisions.md (the spec's own choice) or on a log entry, the docstring says so. -/

open Sys2Proof Sys2Proof.Machine

/-! ### Encoding and decoding -/

/-- Ten of the fetch and decode vectors F1 to F18 of 95_test_vectors.md: words of every family member and of every refusal.
The refusals are choices of the spec: `invalidForm` is decision D11, `reservedRc` D10, `notInSpec` D18 (log entries 13,
14, 15). -/
def Obligations.OpcodeWordsDecode : Prop :=
  decodeWord 0x80640008#32 = .ok (.lwz 3 4 8#16) ∧
  decodeWord 0x83FF7FFF#32 = .ok (.lwz 31 31 0x7FFF#16) ∧
  decodeWord 0x87E1FFFF#32 = .ok (.lwzu 31 1 0xFFFF#16) ∧
  decodeWord 0x7FFEF86E#32 = .ok (.lwzux 31 30 31) ∧
  decodeWord 0x7FDFF82E#32 = .ok (.lwzx 30 31 31) ∧
  decodeWord 0x84000000#32 = .error .invalidForm ∧
  decodeWord 0x7FFFF86E#32 = .error .invalidForm ∧
  decodeWord 0x7C00002F#32 = .error .reservedRc ∧
  decodeWord 0x7C00006F#32 = .error .reservedRc ∧
  decodeWord 0x7C0007FF#32 = .error .notInSpec

/-- R7: `insn{a..b} = insn[31-a : 31-b]`, and the same as arithmetic on the word read as a number. -/
def Obligations.BitFieldIsSlice : Prop :=
  ∀ (insn : Word) (a b : Nat), a ≤ b → b ≤ 31 →
    bitField insn a b = (insn.extractLsb (31 - a) (31 - b)).toNat ∧
    bitField insn a b = insn.toNat / 2 ^ (31 - b) % 2 ^ (b - a + 1)

/-- R63 (which the spec derives from R61 and R62): extraction of every field, assembly of a word of each form, and
extraction followed by assembly is the identity on every word. -/
def Obligations.FieldsTileTheWord : Prop :=
  (∀ insn : Word,
    fieldOPCD insn = insn.toNat / 2 ^ 26 ∧
    (fieldRT insn).val = insn.toNat / 2 ^ 21 % 32 ∧
    (fieldRA insn).val = insn.toNat / 2 ^ 16 % 32 ∧
    (fieldD insn).toNat = insn.toNat % 2 ^ 16 ∧
    (fieldRB insn).val = insn.toNat / 2 ^ 11 % 32 ∧
    fieldXO insn = insn.toNat / 2 % 1024 ∧
    fieldRc insn = insn.toNat % 2 ∧
    encodeD (fieldOPCD insn) (fieldRT insn) (fieldRA insn) (fieldD insn) = insn ∧
    encodeX (fieldOPCD insn) (fieldRT insn) (fieldRA insn) (fieldRB insn) (fieldXO insn) (fieldRc insn) = insn) ∧
  (∀ (opcd : Nat) (rt ra : Reg) (d : Disp), opcd < 64 →
    (encodeD opcd rt ra d).toNat = opcd * 2 ^ 26 + rt.val * 2 ^ 21 + ra.val * 2 ^ 16 + d.toNat) ∧
  (∀ (opcd : Nat) (rt ra rb : Reg) (xo rc : Nat), opcd < 64 → xo < 1024 → rc < 2 →
    (encodeX opcd rt ra rb xo rc).toNat =
      opcd * 2 ^ 26 + rt.val * 2 ^ 21 + ra.val * 2 ^ 16 + rb.val * 2 ^ 11 + xo * 2 + rc)

/-- Headline: every well-formed instruction, with every operand at every value, is what its encoded word decodes to. -/
def Obligations.DecodeOfEncodeIsTheInstruction : Prop :=
  ∀ i : Instr, i.wellFormed = true → decodeWord (encode i) = .ok i

/-- A word that decodes is the encoding of what it decodes to: no bit of it is dropped. Of the X form this holds because
a word with `Rc = 1` is refused, which is decision D10 (R68; log entry 14). -/
def Obligations.EncodeOfDecodedIsTheWord : Prop :=
  ∀ (insn : Word) (i : Instr), decodeWord insn = .ok i → encode i = insn

/-- The decoder answers valid forms only (the refusal of invalid forms is decision D11). -/
def Obligations.DecodedInstructionsAreWellFormed : Prop :=
  ∀ (insn : Word) (i : Instr), decodeWord insn = .ok i → i.wellFormed = true

/-- The decoder against the `mask` and `match` columns of the opcode map (the `Rc` bit in the masks of the X form, the
refused forms and the refused words are decisions D10, D11 and D18). -/
def Obligations.DecodeFollowsMasks : Prop :=
  ∀ insn : Word,
    (insn &&& 0xFC000000#32 = 0x80000000#32 →
      decodeWord insn = .ok (.lwz (fieldRT insn) (fieldRA insn) (fieldD insn))) ∧
    (insn &&& 0xFC000000#32 = 0x84000000#32 →
      decodeWord insn = if fieldRA insn = 0 ∨ fieldRA insn = fieldRT insn then .error .invalidForm
        else .ok (.lwzu (fieldRT insn) (fieldRA insn) (fieldD insn))) ∧
    (insn &&& 0xFC0007FF#32 = 0x7C00006E#32 →
      decodeWord insn = if fieldRA insn = 0 ∨ fieldRA insn = fieldRT insn then .error .invalidForm
        else .ok (.lwzux (fieldRT insn) (fieldRA insn) (fieldRB insn))) ∧
    (insn &&& 0xFC0007FF#32 = 0x7C00002E#32 →
      decodeWord insn = .ok (.lwzx (fieldRT insn) (fieldRA insn) (fieldRB insn))) ∧
    (insn &&& 0xFC0007FF#32 = 0x7C00006F#32 ∨ insn &&& 0xFC0007FF#32 = 0x7C00002F#32 →
      decodeWord insn = .error .reservedRc) ∧
    (insn &&& 0xFC000000#32 ≠ 0x80000000#32 → insn &&& 0xFC000000#32 ≠ 0x84000000#32 →
      insn &&& 0xFC0007FE#32 ≠ 0x7C00006E#32 → insn &&& 0xFC0007FE#32 ≠ 0x7C00002E#32 →
      decodeWord insn = .error .notInSpec)

/-- Every instruction's encoded word, with every operand at every value, is of its own row of the opcode map and of no
other row (R66); every word that decodes is of exactly one row; and no word at all is of two. The `Rc` bit in the masks of
the X form is decision D10 (log entry 14). -/
def Obligations.OpcodeRowsDoNotOverlap : Prop :=
  (∀ (rt ra rb : Reg) (d : Disp),
    rowsMatched (encode (.lwz rt ra d)) = [true, false, false, false] ∧
    rowsMatched (encode (.lwzu rt ra d)) = [false, true, false, false] ∧
    rowsMatched (encode (.lwzux rt ra rb)) = [false, false, true, false] ∧
    rowsMatched (encode (.lwzx rt ra rb)) = [false, false, false, true]) ∧
  (∀ (insn : Word) (i : Instr), decodeWord insn = .ok i → (rowsMatched insn).count true = 1) ∧
  (∀ insn : Word, (rowsMatched insn).count true ≤ 1)

/-- The order of the decoder's tests, on the field arithmetic of R63 (R67 is derived by the spec from R66 to R70, of
which R68, R69 and R70 are decisions D10, D11 and D18). -/
def Obligations.DecodeTestsInOrder : Prop :=
  ∀ insn : Word,
    (insn.toNat / 2 ^ 26 = 32 → decodeWord insn = .ok (.lwz (fieldRT insn) (fieldRA insn) (fieldD insn))) ∧
    (insn.toNat / 2 ^ 26 = 33 → fieldRA insn = 0 ∨ fieldRA insn = fieldRT insn →
      decodeWord insn = .error .invalidForm) ∧
    (insn.toNat / 2 ^ 26 = 33 → fieldRA insn ≠ 0 → fieldRA insn ≠ fieldRT insn →
      decodeWord insn = .ok (.lwzu (fieldRT insn) (fieldRA insn) (fieldD insn))) ∧
    (insn.toNat / 2 ^ 26 = 31 → insn.toNat / 2 % 1024 = 23 → insn.toNat % 2 = 1 →
      decodeWord insn = .error .reservedRc) ∧
    (insn.toNat / 2 ^ 26 = 31 → insn.toNat / 2 % 1024 = 23 → insn.toNat % 2 = 0 →
      decodeWord insn = .ok (.lwzx (fieldRT insn) (fieldRA insn) (fieldRB insn))) ∧
    (insn.toNat / 2 ^ 26 = 31 → insn.toNat / 2 % 1024 = 55 → insn.toNat % 2 = 1 →
      decodeWord insn = .error .reservedRc) ∧
    (insn.toNat / 2 ^ 26 = 31 → insn.toNat / 2 % 1024 = 55 → insn.toNat % 2 = 0 →
      fieldRA insn = 0 ∨ fieldRA insn = fieldRT insn → decodeWord insn = .error .invalidForm) ∧
    (insn.toNat / 2 ^ 26 = 31 → insn.toNat / 2 % 1024 = 55 → insn.toNat % 2 = 0 →
      fieldRA insn ≠ 0 → fieldRA insn ≠ fieldRT insn →
      decodeWord insn = .ok (.lwzux (fieldRT insn) (fieldRA insn) (fieldRB insn))) ∧
    (insn.toNat / 2 ^ 26 ≠ 32 → insn.toNat / 2 ^ 26 ≠ 33 →
      ¬ (insn.toNat / 2 ^ 26 = 31 ∧ (insn.toNat / 2 % 1024 = 23 ∨ insn.toNat / 2 % 1024 = 55)) →
      decodeWord insn = .error .notInSpec)

/-- A step at a word of `lwzx` or `lwzux` with `Rc = 1` is refused as `reserved_rc` (decision D10), whatever its
register fields. -/
def Obligations.RecordFormsAreRefused : Prop :=
  ∀ (s : State) (insn : Word), insn.toNat / 2 ^ 26 = 31 →
    insn.toNat / 2 % 1024 = 23 ∨ insn.toNat / 2 % 1024 = 55 → insn.toNat % 2 = 1 →
    fetchWord s = .next insn → step s = .refused .reservedRc

/-- An update form with `RA = 0` or `RA = RT` is refused as `invalid_form` by the decoder, by a step that fetches it,
and by the meaning itself (decision D11; log entry 13): no value is given to the result the source calls undefined. -/
def Obligations.InvalidUpdateFormsAreRefused : Prop :=
  (∀ (s : State) (insn : Word),
    insn.toNat / 2 ^ 26 = 33 ∨
      (insn.toNat / 2 ^ 26 = 31 ∧ insn.toNat / 2 % 1024 = 55 ∧ insn.toNat % 2 = 0) →
    fieldRA insn = 0 ∨ fieldRA insn = fieldRT insn →
    decodeWord insn = .error .invalidForm ∧ (fetchWord s = .next insn → step s = .refused .invalidForm)) ∧
  (∀ (s : State) (rt ra rb : Reg) (d : Disp), ra = 0 ∨ ra = rt →
    exec (.lwzu rt ra d) s = .refused .invalidForm ∧ exec (.lwzux rt ra rb) s = .refused .invalidForm)

/-- A step at a word that matches no row of the table, with `Rc` left out, is refused as `not_in_spec` (decision D18). -/
def Obligations.OtherWordsAreNotInSpec : Prop :=
  ∀ (s : State) (insn : Word), insn &&& 0xFC000000#32 ≠ 0x80000000#32 → insn &&& 0xFC000000#32 ≠ 0x84000000#32 →
    insn &&& 0xFC0007FE#32 ≠ 0x7C00006E#32 → insn &&& 0xFC0007FE#32 ≠ 0x7C00002E#32 →
    fetchWord s = .next insn → step s = .refused .notInSpec

/-- Big-endian bytes of a word: the four bytes of a word make it up again, the word of four bytes has the value R43
gives it, and its bytes are those four. -/
def Obligations.WordsAreBigEndianBytes : Prop :=
  (∀ w : Word, beWord (wordByte w 0) (wordByte w 1) (wordByte w 2) (wordByte w 3) = w) ∧
  (∀ b0 b1 b2 b3 : Byte,
    (beWord b0 b1 b2 b3).toNat = b0.toNat * 2 ^ 24 + b1.toNat * 2 ^ 16 + b2.toNat * 2 ^ 8 + b3.toNat ∧
    wordByte (beWord b0 b1 b2 b3) 0 = b0 ∧ wordByte (beWord b0 b1 b2 b3) 1 = b1 ∧
    wordByte (beWord b0 b1 b2 b3) 2 = b2 ∧ wordByte (beWord b0 b1 b2 b3) 3 = b3)

/-! ### Memory -/

/-- `MemRead(a, 4)` for data, its three cases in order and in both worlds: the refusal past the top (decision D6), the
stuck read (decision D7), and the word, big-endian from memory or answered by the oracle (decision D9). -/
def Obligations.DataReadIsMemRead : Prop :=
  ∀ (s : State) (a : Addr),
    (0xFFFFFFFC < a.toNat → dataRead s a = .refused .accessWrapsAddressSpace) ∧
    (a.toNat ≤ 0xFFFFFFFC → SomeUnmapped s.mem a → dataRead s a = .fault (.unmapped a)) ∧
    (∀ b0 b1 b2 b3, BytesAt s.mem a b0 b1 b2 b3 → s.memMode = .closedWorld →
      ∃ w, dataRead s a = .next (w, s) ∧
        w.toNat = b0.toNat * 2 ^ 24 + b1.toNat * 2 ^ 16 + b2.toNat * 2 ^ 8 + b3.toNat) ∧
    (∀ b0 b1 b2 b3, BytesAt s.mem a b0 b1 b2 b3 → s.memMode = .openWorld →
      dataRead s a = .next (beWord (Config.oracleByte s.oracleNext) (Config.oracleByte (s.oracleNext + 1))
        (Config.oracleByte (s.oracleNext + 2)) (Config.oracleByte (s.oracleNext + 3)), s.skipOracle 4))

/-- Instructions are fetched from the same memory, big-endian, and never from the oracle (decision D3): the byte at
`pc` holds `insn{0..7}`, the one at `pc + 3` holds `insn{24..31}`; a fetch of an unmapped byte is stuck at `pc`. -/
def Obligations.FetchIsBigEndianFromMemory : Prop :=
  ∀ s : State, s.pc ≠ s.endPc → s.pc.toNat % 4 = 0 → s.pc.toNat ≠ 0xFFFFFFFC →
    (∀ b0 b1 b2 b3, BytesAt s.mem s.pc b0 b1 b2 b3 →
      ∃ insn, fetchWord s = .next insn ∧ bitField insn 0 7 = b0.toNat ∧ bitField insn 8 15 = b1.toNat ∧
        bitField insn 16 23 = b2.toNat ∧ bitField insn 24 31 = b3.toNat) ∧
    (SomeUnmapped s.mem s.pc → fetchWord s = .fault (.unmapped s.pc))

/-- What accesses at neighbouring addresses see of one word (R44, which the spec derives from R43): each byte of it, and
the word at `a + 1` as its three low-order bytes followed by the first byte of the word at `a + 4`. -/
def Obligations.OverlappingWordsShareBytes : Prop :=
  ∀ (m : Memory) (a : Addr) (w v u : Word), memRead m a = .next w → memRead m (a + 1#32) = .next v →
    memRead m (a + 4#32) = .next u →
    (∀ k : Nat, k < 4 → Memory.read m (a + BitVec.ofNat 32 k) = some (wordByte w k)) ∧
    v.toNat = w.toNat % 2 ^ 24 * 2 ^ 8 + u.toNat / 2 ^ 24

/-- R45: a valid load whose four bytes memory holds completes with their big-endian word, whatever its address is modulo
4: no alignment is asked for and no alignment changes the data. (In the closed world; the open world has its own
statement.) -/
def Obligations.LoadsCompleteAtEveryAlignment : Prop :=
  ∀ (i : Instr) (s : State) (b0 b1 b2 b3 : Byte), i.wellFormed = true → s.memMode = .closedWorld →
    BytesAt s.mem (memAddr (effectiveAddr i s)) b0 b1 b2 b3 →
    ∃ t, exec i s = .next t ∧
      (t.gpr (destination i)).toNat =
        b0.toNat * 2 ^ 24 + b1.toNat * 2 ^ 16 + b2.toNat * 2 ^ 8 + b3.toNat

/-- Under `MEM_MODE = open` each of the four loads takes its word from four independent oracle bytes (decision D8; log
entry 7) and advances the oracle by four; an update form's `RA` ends with the effective address, all 64 bits of it by
decision D12 (90_conflicts.md C1; log entry 12). -/
def Obligations.OpenWorldLoadsTakeOracleBytes : Prop :=
  ∀ (i : Instr) (s : State), s.memMode = .openWorld → i.wellFormed = true →
    WordMapped s.mem (memAddr (effectiveAddr i s)) →
    ∃ t, exec i s = .next t ∧ t.oracleNext = s.oracleNext + 4 ∧
      (t.gpr (destination i)).toNat =
        (Config.oracleByte s.oracleNext).toNat * 2 ^ 24 + (Config.oracleByte (s.oracleNext + 1)).toNat * 2 ^ 16 +
        (Config.oracleByte (s.oracleNext + 2)).toNat * 2 ^ 8 + (Config.oracleByte (s.oracleNext + 3)).toNat ∧
      ∀ r ∈ regsWritten i, r ≠ destination i → t.gpr r = effectiveAddr i s

/-- A load above `0xFFFF_FFFC` is refused, not wrapped and not a fault (decision D6; log entry 11). -/
def Obligations.LoadsPastTheTopAreRefused : Prop :=
  ∀ (i : Instr) (s : State), i.wellFormed = true → 0xFFFFFFFC < (memAddr (effectiveAddr i s)).toNat →
    exec i s = .refused .accessWrapsAddressSpace

/-- A load or a fetch that touches a byte outside `Mapped` is stuck, and the reason carries the access's address
(decision D7; log entry 2). -/
def Obligations.UnmappedAccessesAreStuck : Prop :=
  (∀ (i : Instr) (s : State), i.wellFormed = true → (memAddr (effectiveAddr i s)).toNat ≤ 0xFFFFFFFC →
    SomeUnmapped s.mem (memAddr (effectiveAddr i s)) →
    exec i s = .fault (.unmapped (memAddr (effectiveAddr i s)))) ∧
  (∀ s : State, s.pc ≠ s.endPc → s.pc.toNat % 4 = 0 → s.pc.toNat ≠ 0xFFFFFFFC → SomeUnmapped s.mem s.pc →
    step s = .fault (.unmapped s.pc))

/-- A data read changes nothing but the model's own oracle position, and in the closed world reading again gives the
same (decision D19; log entry 22). -/
def Obligations.DataReadsHaveNoSideEffect : Prop :=
  ∀ (s t : State) (a : Addr) (w : Word), dataRead s a = .next (w, t) →
    t.gprs = s.gprs ∧ t.pc = s.pc ∧ t.mem = s.mem ∧ t.endPc = s.endPc ∧ t.memMode = s.memMode ∧
    (s.memMode = .closedWorld → t = s ∧ dataRead t a = .next (w, t))

/-- An instruction word placed at an aligned `pc` is the one the next step runs (log entry 20): the launch's write and
the machine's fetch agree on place and byte order (decision D3). -/
def Obligations.PlacedInstructionRunsNext : Prop :=
  ∀ (s : State) (insn : Word) (i : Instr), s.pc.toNat % 4 = 0 → s.pc.toNat ≠ 0xFFFFFFFC →
    decodeWord insn = .ok i → step (placeInstr s insn) = exec i (placeInstr s insn)

/-! ### Operands and effective addresses -/

/-- R64: the displacement is sign-extended to 64 bits, neither scaled nor shifted, and added to the base. -/
def Obligations.DisplacementIsSignExtended : Prop :=
  ∀ (s : State) (ra : Reg) (d : Disp),
    (dispOffset d).toNat = (if d.toNat ≤ 0x7FFF then d.toNat else d.toNat + 2 ^ 64 - 2 ^ 16) ∧
    (dispOffset d).toInt = (if d.toNat ≤ 0x7FFF then (d.toNat : Int) else (d.toNat : Int) - 65536) ∧
    eaLwz s ra d = base0 s ra + dispOffset d ∧ eaLwzu s ra d = s.gpr ra + dispOffset d

/-- R65: in `lwz` and `lwzx` field value 0 of `RA` is the constant zero, 1 to 31 a register; in the update forms `RA` is
a register and 0 an invalid form; `RT` and `RB` always name a register, 0 included. -/
def Obligations.OperandFormsOfRA : Prop :=
  ∀ (s : State) (ra rb : Reg) (d : Disp),
    eaLwz s 0 d = dispOffset d ∧ eaLwzx s 0 rb = s.gpr rb ∧
    (ra ≠ 0 → eaLwz s ra d = s.gpr ra + dispOffset d ∧ eaLwzx s ra rb = s.gpr ra + s.gpr rb ∧
      eaLwzu s ra d = s.gpr ra + dispOffset d ∧ eaLwzux s ra rb = s.gpr ra + s.gpr rb) ∧
    (∀ rt, (Instr.lwzu rt 0 d).wellFormed = false ∧ (Instr.lwzux rt 0 rb).wellFormed = false) ∧
    eaLwzx s ra 0 = base0 s ra + s.gpr 0 ∧ eaLwzux s ra 0 = s.gpr ra + s.gpr 0 ∧
    (∀ (i : Instr) (t : State), exec i s = .next t → destination i = 0 →
      ∃ w u, dataRead s (memAddr (effectiveAddr i s)) = .next (w, u) ∧ t.gpr 0 = zeroExtend w)

/-- `lwz` and `lwzx` with `RA = 0` do not read `r0` as a base (R21, R65): whatever value is put into `r0` first, they
stop alike, or both complete with the same registers (`r0` apart, where it is not the destination), `pc` and memory. For
`lwzx` the index is another register. The two states have the same oracle position, so in the open world an equal
destination value rests on the model's choice of log entry 7: the spec lets the oracle answer differently (R49). -/
def Obligations.LiteralZeroBaseIgnoresR0 : Prop :=
  ∀ (i : Instr) (s : State) (v : Dword),
    (∃ rt d, i = .lwz rt 0 d) ∨ (∃ rt rb, rb ≠ 0 ∧ i = .lwzx rt 0 rb) →
    (∀ t, exec i s = .next t →
      ∃ u, exec i (s.setGpr 0 v) = .next u ∧ u.gpr (destination i) = t.gpr (destination i) ∧
        (∀ r, r ≠ 0 → u.gpr r = t.gpr r) ∧ u.pc = t.pc ∧ u.mem = t.mem) ∧
    (∀ f, exec i s = .fault f → exec i (s.setGpr 0 v) = .fault f) ∧
    (∀ q, exec i s = .refused q → exec i (s.setGpr 0 v) = .refused q)

/-- R95: the effective address is a 64-bit sum taken modulo `2 ^ 64`, with the displacement's sign extension as the only
part that signedness plays. -/
def Obligations.EffectiveAddressIsModular : Prop :=
  ∀ (s : State) (ra rb : Reg) (d : Disp),
    (eaLwz s ra d).toNat = ((if ra = 0 then 0 else (s.gpr ra).toNat) +
      (if d.toNat ≤ 0x7FFF then d.toNat else d.toNat + 2 ^ 64 - 2 ^ 16)) % 2 ^ 64 ∧
    (eaLwzu s ra d).toNat = ((s.gpr ra).toNat +
      (if d.toNat ≤ 0x7FFF then d.toNat else d.toNat + 2 ^ 64 - 2 ^ 16)) % 2 ^ 64 ∧
    (eaLwzux s ra rb).toNat = ((s.gpr ra).toNat + (s.gpr rb).toNat) % 2 ^ 64 ∧
    (eaLwzx s ra rb).toNat = ((if ra = 0 then 0 else (s.gpr ra).toNat) + (s.gpr rb).toNat) % 2 ^ 64

/-- R41: the memory address is the low 32 bits of the effective address, the high half is ignored for the access and no
check is made on it; a negative displacement from a zero base reaches the top of the space. -/
def Obligations.AddressIsLowHalfOfEA : Prop :=
  (∀ ea : Dword, (memAddr ea).toNat = ea.toNat % 2 ^ 32) ∧
  (∀ (s : State) (ea ea' : Dword), ea.toNat % 2 ^ 32 = ea'.toNat % 2 ^ 32 →
    dataRead s (memAddr ea) = dataRead s (memAddr ea') ∧ ∀ rt, loadZero rt ea s = loadZero rt ea' s) ∧
  (∀ s : State, eaLwz s 0 0x8000#16 = 0xFFFFFFFFFFFF8000#64 ∧ memAddr (eaLwz s 0 0x8000#16) = 0xFFFF8000#32)

/-- R42: the absolute addresses an `lwz` with `RA = 0` can reach are exactly the low and the high 32 KiB. -/
def Obligations.ZeroBaseReach : Prop :=
  ∀ (s : State) (a : Addr),
    (∃ d : Disp, memAddr (eaLwz s 0 d) = a) ↔ (a.toNat ≤ 0x7FFF ∨ 0xFFFF8000 ≤ a.toNat)

/-- R91 and R94, corner cases: the high half of the base has no effect on `lwz` or `lwzx`. With two base values equal in
their low halves they stop alike, or both complete with the same registers (the base apart, where it is not the
destination), `pc` and memory. The two states have the same oracle position, so in the open world an equal loaded value
rests on the model's choice of log entry 7: the spec lets the oracle answer differently (R49). -/
def Obligations.HighHalfOfBaseIsIgnored : Prop :=
  ∀ (i : Instr) (s : State) (rt ra : Reg) (v v' : Dword), v.toNat % 2 ^ 32 = v'.toNat % 2 ^ 32 →
    (∃ d, i = .lwz rt ra d) ∨ (∃ rb, i = .lwzx rt ra rb) →
    (∀ t, exec i (s.setGpr ra v) = .next t →
      ∃ u, exec i (s.setGpr ra v') = .next u ∧ u.gpr rt = t.gpr rt ∧
        (∀ r, r ≠ ra → u.gpr r = t.gpr r) ∧ u.pc = t.pc ∧ u.mem = t.mem) ∧
    (∀ f, exec i (s.setGpr ra v) = .fault f → exec i (s.setGpr ra v') = .fault f) ∧
    (∀ q, exec i (s.setGpr ra v) = .refused q → exec i (s.setGpr ra v') = .refused q)

/-! ### Results of the instructions -/

/-- R90: each of the four computes its 64-bit effective address, reads the big-endian word at its low 32 bits, writes the
word zero-extended to `RT`, writes the address back to `RA` in the update forms (valid for `RA` neither 0 nor `RT`), and
advances `pc` by 4. (In the closed world; the meanings' own statements below hold in both.) That `RA` ends with the whole
64-bit sum is the spec's choice, 90_conflicts.md C1 and decision D12 (log entry 12, unsafe). -/
def Obligations.EachLoadDoesFourThings : Prop :=
  ∀ (s : State) (rt ra rb : Reg) (d : Disp) (b0 b1 b2 b3 : Byte), s.memMode = .closedWorld →
    let base : Dword := if ra = 0 then 0#64 else s.gpr ra
    let disp : Dword := d.signExtend 64
    let word : Nat := b0.toNat * 2 ^ 24 + b1.toNat * 2 ^ 16 + b2.toNat * 2 ^ 8 + b3.toNat
    (BytesAt s.mem ((base + disp).setWidth 32) b0 b1 b2 b3 →
      ∃ t, exec (.lwz rt ra d) s = .next t ∧ (t.gpr rt).toNat = word ∧
        (ra ≠ rt → t.gpr ra = s.gpr ra) ∧ t.pc = s.pc + 4#32) ∧
    (ra ≠ 0 → ra ≠ rt → BytesAt s.mem ((s.gpr ra + disp).setWidth 32) b0 b1 b2 b3 →
      ∃ t, exec (.lwzu rt ra d) s = .next t ∧ (t.gpr rt).toNat = word ∧ t.gpr ra = s.gpr ra + disp ∧
        t.pc = s.pc + 4#32) ∧
    (ra ≠ 0 → ra ≠ rt → BytesAt s.mem ((s.gpr ra + s.gpr rb).setWidth 32) b0 b1 b2 b3 →
      ∃ t, exec (.lwzux rt ra rb) s = .next t ∧ (t.gpr rt).toNat = word ∧ t.gpr ra = s.gpr ra + s.gpr rb ∧
        t.pc = s.pc + 4#32) ∧
    (BytesAt s.mem ((base + s.gpr rb).setWidth 32) b0 b1 b2 b3 →
      ∃ t, exec (.lwzx rt ra rb) s = .next t ∧ (t.gpr rt).toNat = word ∧
        (ra ≠ rt → t.gpr ra = s.gpr ra) ∧ t.pc = s.pc + 4#32) ∧
    (∀ rt ra rb d, ((Instr.lwz rt ra d).wellFormed = true ∧ (Instr.lwzx rt ra rb).wellFormed = true) ∧
      ((Instr.lwzu rt ra d).wellFormed = true ↔ ra ≠ 0 ∧ ra ≠ rt) ∧
      ((Instr.lwzux rt ra rb).wellFormed = true ↔ ra ≠ 0 ∧ ra ≠ rt))

/-- `lwz` whole: its word, its result with everything it leaves alone, and its stops (decisions D6, D7), in which
nothing is written. -/
def Obligations.LwzMeaning : Prop :=
  ∀ (s : State) (rt ra : Reg) (d : Disp),
    let ea : Dword := (if ra = 0 then 0#64 else s.gpr ra) + d.signExtend 64
    (encode (.lwz rt ra d)).toNat = 0x80000000 + rt.val * 2 ^ 21 + ra.val * 2 ^ 16 + d.toNat ∧
    decodeWord (encode (.lwz rt ra d)) = .ok (.lwz rt ra d) ∧
    (∀ b0 b1 b2 b3, BytesAt s.mem (ea.setWidth 32) b0 b1 b2 b3 →
      ∃ t, exec (.lwz rt ra d) s = .next t ∧ t.gpr rt = (answeredWord s b0 b1 b2 b3).setWidth 64 ∧
        (∀ r, r ≠ rt → t.gpr r = s.gpr r) ∧ t.pc = s.pc + 4#32 ∧ t.mem = s.mem) ∧
    ((ea.setWidth 32).toNat ≤ 0xFFFFFFFC → SomeUnmapped s.mem (ea.setWidth 32) →
      exec (.lwz rt ra d) s = .fault (.unmapped (ea.setWidth 32))) ∧
    (0xFFFFFFFC < (ea.setWidth 32).toNat → exec (.lwz rt ra d) s = .refused .accessWrapsAddressSpace)

/-- `lwzu` whole: its word, its result with everything it leaves alone, the refused forms (decision D11) and the stops
of its read (D6, D7). All 64 bits of `EA` reach `RA` (90_conflicts.md C1, decision D12; log entry 12). -/
def Obligations.LwzuMeaning : Prop :=
  ∀ (s : State) (rt ra : Reg) (d : Disp),
    let ea : Dword := s.gpr ra + d.signExtend 64
    (encode (.lwzu rt ra d)).toNat = 0x84000000 + rt.val * 2 ^ 21 + ra.val * 2 ^ 16 + d.toNat ∧
    (ra = 0 ∨ ra = rt → exec (.lwzu rt ra d) s = .refused .invalidForm) ∧
    (ra ≠ 0 → ra ≠ rt →
      decodeWord (encode (.lwzu rt ra d)) = .ok (.lwzu rt ra d) ∧
      (∀ b0 b1 b2 b3, BytesAt s.mem (ea.setWidth 32) b0 b1 b2 b3 →
        ∃ t, exec (.lwzu rt ra d) s = .next t ∧ t.gpr rt = (answeredWord s b0 b1 b2 b3).setWidth 64 ∧
          t.gpr ra = ea ∧ (∀ r, r ≠ rt → r ≠ ra → t.gpr r = s.gpr r) ∧ t.pc = s.pc + 4#32 ∧ t.mem = s.mem) ∧
      ((ea.setWidth 32).toNat ≤ 0xFFFFFFFC → SomeUnmapped s.mem (ea.setWidth 32) →
        exec (.lwzu rt ra d) s = .fault (.unmapped (ea.setWidth 32))) ∧
      (0xFFFFFFFC < (ea.setWidth 32).toNat → exec (.lwzu rt ra d) s = .refused .accessWrapsAddressSpace))

/-- `lwzux` whole, as `lwzu` with the index register in place of the displacement (decisions D6, D7, D11, D12; log entry
12). `RB` may be `RA` or `RT` or 0. -/
def Obligations.LwzuxMeaning : Prop :=
  ∀ (s : State) (rt ra rb : Reg),
    let ea : Dword := s.gpr ra + s.gpr rb
    (encode (.lwzux rt ra rb)).toNat = 0x7C00006E + rt.val * 2 ^ 21 + ra.val * 2 ^ 16 + rb.val * 2 ^ 11 ∧
    (ra = 0 ∨ ra = rt → exec (.lwzux rt ra rb) s = .refused .invalidForm) ∧
    (ra ≠ 0 → ra ≠ rt →
      decodeWord (encode (.lwzux rt ra rb)) = .ok (.lwzux rt ra rb) ∧
      (∀ b0 b1 b2 b3, BytesAt s.mem (ea.setWidth 32) b0 b1 b2 b3 →
        ∃ t, exec (.lwzux rt ra rb) s = .next t ∧ t.gpr rt = (answeredWord s b0 b1 b2 b3).setWidth 64 ∧
          t.gpr ra = ea ∧ (∀ r, r ≠ rt → r ≠ ra → t.gpr r = s.gpr r) ∧ t.pc = s.pc + 4#32 ∧ t.mem = s.mem) ∧
      ((ea.setWidth 32).toNat ≤ 0xFFFFFFFC → SomeUnmapped s.mem (ea.setWidth 32) →
        exec (.lwzux rt ra rb) s = .fault (.unmapped (ea.setWidth 32))) ∧
      (0xFFFFFFFC < (ea.setWidth 32).toNat → exec (.lwzux rt ra rb) s = .refused .accessWrapsAddressSpace))

/-- `lwzx` whole: its word, its result with everything it leaves alone, and its stops (decisions D6, D7). -/
def Obligations.LwzxMeaning : Prop :=
  ∀ (s : State) (rt ra rb : Reg),
    let ea : Dword := (if ra = 0 then 0#64 else s.gpr ra) + s.gpr rb
    (encode (.lwzx rt ra rb)).toNat = 0x7C00002E + rt.val * 2 ^ 21 + ra.val * 2 ^ 16 + rb.val * 2 ^ 11 ∧
    decodeWord (encode (.lwzx rt ra rb)) = .ok (.lwzx rt ra rb) ∧
    (∀ b0 b1 b2 b3, BytesAt s.mem (ea.setWidth 32) b0 b1 b2 b3 →
      ∃ t, exec (.lwzx rt ra rb) s = .next t ∧ t.gpr rt = (answeredWord s b0 b1 b2 b3).setWidth 64 ∧
        (∀ r, r ≠ rt → t.gpr r = s.gpr r) ∧ t.pc = s.pc + 4#32 ∧ t.mem = s.mem) ∧
    ((ea.setWidth 32).toNat ≤ 0xFFFFFFFC → SomeUnmapped s.mem (ea.setWidth 32) →
      exec (.lwzx rt ra rb) s = .fault (.unmapped (ea.setWidth 32))) ∧
    (0xFFFFFFFC < (ea.setWidth 32).toNat → exec (.lwzx rt ra rb) s = .refused .accessWrapsAddressSpace)

/-- An update form is the plain form with the effective address then written to `RA` (R90): same completions, and the
next states differ in that one register. All 64 bits: 90_conflicts.md C1, decision D12 (log entry 12). In the open world
the two forms are answered by the same oracle bytes, the model's choice (log entry 7). -/
def Obligations.UpdateFormIsLoadThenWriteBack : Prop :=
  ∀ (s t : State) (rt ra rb : Reg) (d : Disp), ra ≠ 0 → ra ≠ rt →
    (exec (.lwzu rt ra d) s = .next t ↔
      ∃ u, exec (.lwz rt ra d) s = .next u ∧ t = u.setGpr ra (eaLwz s ra d)) ∧
    (exec (.lwzux rt ra rb) s = .next t ↔
      ∃ u, exec (.lwzx rt ra rb) s = .next u ∧ t = u.setGpr ra (eaLwzx s ra rb))

/-- The indexed form is the displacement form where the index register holds the sign-extended displacement (R90): the
same outcome, stops included. In the open world the two forms are answered by the same oracle bytes, the model's choice
(log entry 7). -/
def Obligations.IndexActsAsDisplacement : Prop :=
  ∀ (s : State) (rt ra rb : Reg) (d : Disp), s.gpr rb = d.signExtend 64 →
    exec (.lwzx rt ra rb) s = exec (.lwz rt ra d) s ∧ exec (.lwzux rt ra rb) s = exec (.lwzu rt ra d) s

/-- R96: after each of the four, `RT` holds exactly the word the read answered, its high 32 bits zero. -/
def Obligations.LoadedRegisterIsZeroExtended : Prop :=
  ∀ (i : Instr) (s t : State), exec i s = .next t →
    (∃ w u, dataRead s (memAddr (effectiveAddr i s)) = .next (w, u) ∧
      (t.gpr (destination i)).toNat = w.toNat) ∧
    (t.gpr (destination i)).toNat < 2 ^ 32

/-- R30, the frame: a completed instruction changes exactly `x[RT]`, `x[RA]` as well in the update forms, and `pc`; every
other register, every byte of memory and the launch arguments are unchanged. (The oracle position, the model's own field,
has its own statement.) -/
def Obligations.FrameOfTheLoads : Prop :=
  ∀ (s t : State) (rt ra rb : Reg) (d : Disp),
    (exec (.lwz rt ra d) s = .next t ∨ exec (.lwzx rt ra rb) s = .next t → ∀ r, r ≠ rt → t.gpr r = s.gpr r) ∧
    (exec (.lwzu rt ra d) s = .next t ∨ exec (.lwzux rt ra rb) s = .next t →
      ∀ r, r ≠ rt → r ≠ ra → t.gpr r = s.gpr r) ∧
    (exec (.lwz rt ra d) s = .next t ∨ exec (.lwzx rt ra rb) s = .next t ∨
      exec (.lwzu rt ra d) s = .next t ∨ exec (.lwzux rt ra rb) s = .next t →
      (∀ a, Memory.read t.mem a = Memory.read s.mem a) ∧ t.mem = s.mem ∧ t.endPc = s.endPc ∧
      t.memMode = s.memMode)

/-- The model's own oracle position (log entry 7): a completed instruction leaves it alone in the closed world and moves
it by four bytes in the open. -/
def Obligations.OraclePositionCountsBytes : Prop :=
  ∀ (i : Instr) (s t : State), exec i s = .next t →
    (s.memMode = .closedWorld → t.oracleNext = s.oracleNext) ∧
    (s.memMode = .openWorld → t.oracleNext = s.oracleNext + 4)

/-- R23: every in-scope instruction that completes sets `pc` to `pc + 4`; none reads `pc` as an operand: from another
`pc` it does the same and ends 4 after that one. The clause about another `pc` compares two states with the same oracle
position, so in the open world it rests on the model's choice of log entry 7; and it takes in `pc = 0xFFFF_FFFC`, where
the meaning by itself adds modulo `2 ^ 32`, the model's choice of log entry 9 (a step there is refused, R24). -/
def Obligations.EveryLoadAdvancesPcByFour : Prop :=
  ∀ (i : Instr) (s t : State), exec i s = .next t →
    t.pc = s.pc + 4#32 ∧ ∀ p : Addr, exec i { s with pc := p } = .next { t with pc := p + 4#32 }

/-- R22: which registers an instruction reads and writes. Two states that agree on the registers it reads, and differ in
any others and in `pc`, stop alike, or both complete and write the same values; and a register it does not write keeps
its value. The two states have the same oracle position: in the open world the equal values rest on the model's choice of
log entry 7. -/
def Obligations.LoadsDependOnReadRegistersOnly : Prop :=
  ∀ (i : Instr) (s s' : State), (∀ r ∈ regsRead i, s'.gpr r = s.gpr r) →
    s'.mem = s.mem → s'.memMode = s.memMode → s'.oracleNext = s.oracleNext →
    (∀ t, exec i s = .next t →
      (∃ t', exec i s' = .next t' ∧ ∀ r ∈ regsWritten i, t'.gpr r = t.gpr r) ∧
      ∀ r, r ∉ regsWritten i → t.gpr r = s.gpr r) ∧
    (∀ f, exec i s = .fault f → exec i s' = .fault f) ∧ (∀ q, exec i s = .refused q → exec i s' = .refused q)

/-- Where the effective address fits 32 bits, the written-back address is the same under both readings of
90_conflicts.md C1 (decision D12, log entry 12): all of it, or its low half zero-extended. -/
def Obligations.WriteBackReadingsAgree : Prop :=
  ∀ ea : Dword, ea.extractLsb 63 32 = 0#32 → updateValue ea = (ea.setWidth 32).setWidth 64

/-- A loaded pointer is usable at once as a base (R52): the next instruction's address is the loaded word plus its
displacement. -/
def Obligations.LoadedPointerIsUsableAtOnce : Prop :=
  ∀ (i : Instr) (s t : State) (d : Disp), exec i s = .next t → destination i ≠ 0 →
    ∃ w u, dataRead s (memAddr (effectiveAddr i s)) = .next (w, u) ∧
      eaLwz t (destination i) d = w.setWidth 64 + d.signExtend 64

/-- The open world covers the closed (R51: it "admits every ordering the chip could show and more"): where the oracle's
next bytes are the bytes in memory, the open step's registers and `pc` are the closed step's. -/
def Obligations.OpenWorldCoversClosedWorld : Prop :=
  ∀ (i : Instr) (s t : State), s.memMode = .openWorld →
    BytesAt s.mem (memAddr (effectiveAddr i s)) (Config.oracleByte s.oracleNext)
      (Config.oracleByte (s.oracleNext + 1)) (Config.oracleByte (s.oracleNext + 2))
      (Config.oracleByte (s.oracleNext + 3)) →
    exec i { s with memMode := .closedWorld } = .next t →
    ∃ u, exec i s = .next u ∧ u.gprs = t.gprs ∧ u.pc = t.pc ∧ u.mem = t.mem

/-! ### Steps and runs -/

/-- A step runs the decoded instruction: where the run is not over, `pc` is in order and the word fetched decodes, the
step is that instruction's meaning at the same state, nothing around it (decisions D1, D3, D4; R113). -/
def Obligations.StepRunsTheDecodedInstruction : Prop :=
  ∀ (s : State) (insn : Word) (i : Instr), s.pc ≠ s.endPc → s.pc.toNat % 4 = 0 → s.pc.toNat ≠ 0xFFFFFFFC →
    memRead s.mem s.pc = .next insn → decodeWord insn = .ok i → step s = exec i s

/-- A state with `pc = END_PC` is final (decision D17): there is no step from it, whatever stands there. -/
def Obligations.RunIsOverAtEndPc : Prop :=
  ∀ s : State, s.pc = s.endPc → step s = .fault .runOver

/-- The checks of `pc` (decisions D2 and D4): a misaligned `pc` and the last word's address are refused, whatever memory
holds there, and at every other multiple of 4 neither the four bytes nor the successor pass the top. -/
def Obligations.PcIsCheckedAndNeverWraps : Prop :=
  ∀ s : State, s.pc ≠ s.endPc →
    (s.pc.toNat % 4 ≠ 0 → step s = .refused .pcMisaligned) ∧
    (s.pc.toNat = 0xFFFFFFFC → step s = .refused .pcOverflow) ∧
    (s.pc.toNat % 4 = 0 → s.pc.toNat ≠ 0xFFFFFFFC →
      s.pc.toNat + 4 < 2 ^ 32 ∧ (s.pc + 4#32).toNat = s.pc.toNat + 4)

/-- The order of the checks of one step (decision D1; R113): the first condition met decides the outcome, and where none
is met the step completes. -/
def Obligations.StepChecksInOrder : Prop :=
  ∀ s : State,
    (s.pc = s.endPc → step s = .fault .runOver) ∧
    (s.pc ≠ s.endPc → s.pc.toNat % 4 ≠ 0 → step s = .refused .pcMisaligned) ∧
    (s.pc ≠ s.endPc → s.pc.toNat = 0xFFFFFFFC → step s = .refused .pcOverflow) ∧
    (s.pc ≠ s.endPc → s.pc.toNat % 4 = 0 → s.pc.toNat ≠ 0xFFFFFFFC →
      (SomeUnmapped s.mem s.pc → step s = .fault (.unmapped s.pc)) ∧
      (∀ insn, memRead s.mem s.pc = .next insn →
        (decodeWord insn = .error .notInSpec → step s = .refused .notInSpec) ∧
        (decodeWord insn = .error .reservedRc → step s = .refused .reservedRc) ∧
        (decodeWord insn = .error .invalidForm → step s = .refused .invalidForm) ∧
        (∀ i, decodeWord insn = .ok i →
          (0xFFFFFFFC < (memAddr (effectiveAddr i s)).toNat → step s = .refused .accessWrapsAddressSpace) ∧
          ((memAddr (effectiveAddr i s)).toNat ≤ 0xFFFFFFFC →
            SomeUnmapped s.mem (memAddr (effectiveAddr i s)) →
            step s = .fault (.unmapped (memAddr (effectiveAddr i s)))) ∧
          (WordMapped s.mem (memAddr (effectiveAddr i s)) → ∃ t, step s = .next t))))

/-- The list of reasons is closed (decision D1; R111): a step that does not complete has one of these, raised by its
condition; in particular none is the refusal of an instruction without a meaning. -/
def Obligations.StopReasonsAreClosed : Prop :=
  (∀ (s : State) (q : Refusal), step s = .refused q →
    (q = .pcMisaligned ∧ s.pc.toNat % 4 ≠ 0) ∨
    (q = .pcOverflow ∧ s.pc.toNat = 0xFFFFFFFC) ∨
    (∃ insn, memRead s.mem s.pc = .next insn ∧
      ((q = .notInSpec ∧ decodeWord insn = .error .notInSpec) ∨
       (q = .reservedRc ∧ decodeWord insn = .error .reservedRc) ∨
       (q = .invalidForm ∧ decodeWord insn = .error .invalidForm) ∨
       (q = .accessWrapsAddressSpace ∧ ∃ i, decodeWord insn = .ok i ∧
         0xFFFFFFFC < (memAddr (effectiveAddr i s)).toNat)))) ∧
  (∀ (s : State) (f : Fault), step s = .fault f →
    (f = .runOver ∧ s.pc = s.endPc) ∨
    (f = .unmapped s.pc ∧ SomeUnmapped s.mem s.pc) ∨
    (∃ insn i, memRead s.mem s.pc = .next insn ∧ decodeWord insn = .ok i ∧
      f = .unmapped (memAddr (effectiveAddr i s)) ∧ SomeUnmapped s.mem (memAddr (effectiveAddr i s))))

/-- A step completes exactly when no check ends it (decisions D1 to D4, D6, D7, D17; R113). -/
def Obligations.StepCompletesExactlyWhenItCan : Prop :=
  ∀ s : State, (∃ t, step s = .next t) ↔ CanStep s

/-- No step changes what the launch fixed: memory, and with it `Mapped`, `END_PC` and `MEM_MODE` (decisions D7, D9,
D17). -/
def Obligations.StepKeepsLaunchArguments : Prop :=
  ∀ s t : State, step s = .next t →
    t.mem = s.mem ∧ (∀ a, Memory.read t.mem a = Memory.read s.mem a) ∧ t.endPc = s.endPc ∧ t.memMode = s.memMode

/-- Headline: every step from every state that meets the invariant leads to one that meets it: memory in canonical
form, `pc` and `END_PC` multiples of 4 (decisions D4, D17). -/
def Obligations.StepKeepsTheInvariant : Prop :=
  ∀ s t : State, Inv s → step s = .next t → Inv t

/-- The reset state meets the invariant; its values are the model's choice (log entries 2 to 7). -/
def Obligations.ResetMeetsTheInvariant : Prop := Inv State.reset

/-- The reset state: `MEM_MODE` has the default the spec gives it (closed); every other value is the model's choice (log
entries 2 to 5 and 7), since the spec leaves it unspecified. -/
def Obligations.ResetState : Prop :=
  State.reset.memMode = .closedWorld ∧ (∀ r, State.reset.gpr r = 0#64) ∧ State.reset.pc = 0#32 ∧
    State.reset.endPc = 0xFFFFFFFC#32 ∧ (∀ a, Memory.read State.reset.mem a = none)

/-- R98: a run is a straight line. After any number of completed steps `pc` has advanced by exactly 4 each,
without wrapping, no state on the way was final, and memory, `END_PC` and `MEM_MODE` are as at the start. -/
def Obligations.RunsAreStraightLine : Prop :=
  ∀ (n : Nat) (s t : State), steps n s = .next t →
    t.pc.toNat = s.pc.toNat + 4 * n ∧ t.mem = s.mem ∧ t.endPc = s.endPc ∧ t.memMode = s.memMode ∧
    ∀ k < n, s.endPc.toNat ≠ s.pc.toNat + 4 * k

/-- R131, R132, decision D17: a launch that meets premises P1 to P3 for `n` instructions proceeds through `n`
completed steps, reaches `END_PC`, and the run is then over. -/
def Obligations.LaunchPremisesGiveACompleteRun : Prop :=
  ∀ (n : Nat) (s : State), LaunchPremises n s →
    ∃ t, steps n s = .next t ∧ t.pc = t.endPc ∧ step t = .fault .runOver
end

