-- ==== Sys2Proof/Laws/State.lean ====
section
/-! SUPPORT. One lemma per field per state update, and register read after register write (10_state.md R20, R21, R30). -/

namespace Sys2Proof.Machine

@[simp] theorem setGpr_pc (s : State) (r : Reg) (v : Dword) : (s.setGpr r v).pc = s.pc := rfl
@[simp] theorem setGpr_mem (s : State) (r : Reg) (v : Dword) : (s.setGpr r v).mem = s.mem := rfl
@[simp] theorem setGpr_endPc (s : State) (r : Reg) (v : Dword) : (s.setGpr r v).endPc = s.endPc := rfl
@[simp] theorem setGpr_memMode (s : State) (r : Reg) (v : Dword) : (s.setGpr r v).memMode = s.memMode := rfl
@[simp] theorem setGpr_oracleNext (s : State) (r : Reg) (v : Dword) :
    (s.setGpr r v).oracleNext = s.oracleNext := rfl

@[simp] theorem advancePc_gprs (s : State) : s.advancePc.gprs = s.gprs := rfl
@[simp] theorem advancePc_gpr (s : State) (r : Reg) : s.advancePc.gpr r = s.gpr r := rfl
@[simp] theorem advancePc_pc (s : State) : s.advancePc.pc = s.pc + 4#32 := rfl
@[simp] theorem advancePc_mem (s : State) : s.advancePc.mem = s.mem := rfl
@[simp] theorem advancePc_endPc (s : State) : s.advancePc.endPc = s.endPc := rfl
@[simp] theorem advancePc_memMode (s : State) : s.advancePc.memMode = s.memMode := rfl
@[simp] theorem advancePc_oracleNext (s : State) : s.advancePc.oracleNext = s.oracleNext := rfl

@[simp] theorem skipOracle_gprs (s : State) (n : Nat) : (s.skipOracle n).gprs = s.gprs := rfl
@[simp] theorem skipOracle_gpr (s : State) (n : Nat) (r : Reg) : (s.skipOracle n).gpr r = s.gpr r := rfl
@[simp] theorem skipOracle_pc (s : State) (n : Nat) : (s.skipOracle n).pc = s.pc := rfl
@[simp] theorem skipOracle_mem (s : State) (n : Nat) : (s.skipOracle n).mem = s.mem := rfl
@[simp] theorem skipOracle_endPc (s : State) (n : Nat) : (s.skipOracle n).endPc = s.endPc := rfl
@[simp] theorem skipOracle_memMode (s : State) (n : Nat) : (s.skipOracle n).memMode = s.memMode := rfl
@[simp] theorem skipOracle_oracleNext (s : State) (n : Nat) : (s.skipOracle n).oracleNext = s.oracleNext + n := rfl

/-- A register reads as what was written to it, `r0` included (10_state.md R21). -/
theorem gpr_setGpr_same (s : State) (r : Reg) (v : Dword) : (s.setGpr r v).gpr r = v := by
  simp [State.gpr, State.setGpr]

/-- A register write leaves the other registers alone (10_state.md R20, R30). -/
theorem gpr_setGpr_ne (s : State) {r q : Reg} (v : Dword) (h : q ≠ r) : (s.setGpr r v).gpr q = s.gpr q := by
  have h' : r.val ≠ q.val := fun e => h (Fin.ext e.symm)
  simp [State.gpr, State.setGpr, Vector.getElem_set_ne _ _ h']

/-- Both cases of reading a register after a register write. -/
theorem gpr_setGpr (s : State) (r q : Reg) (v : Dword) :
    (s.setGpr r v).gpr q = if q = r then v else s.gpr q := by
  split
  · next h => subst h; exact gpr_setGpr_same s q v
  · next h => exact gpr_setGpr_ne s v h

/-- Two register files that read alike are equal. -/
theorem gprs_ext {s t : State} (h : ∀ r, s.gpr r = t.gpr r) : s.gprs = t.gprs :=
  Vector.ext fun i hi => h ⟨i, hi⟩

end Sys2Proof.Machine
end

