-- ==== Sys2Proof/Laws/Ops.lean ====
section
/-! SUPPORT. For each shared operation, what it can do, said once. -/

namespace Sys2Proof.Machine

/-- `andThen` answers a next value exactly when both parts do. -/
theorem andThen_eq_next {α β : Type} {o : Host.Outcome α Fault Refusal} {k : α → Host.Outcome β Fault Refusal}
    {b : β} : andThen o k = .next b ↔ ∃ a, o = .next a ∧ k a = .next b := by
  cases o <;> simp [andThen]

@[simp] theorem andThen_next {α β : Type} (a : α) (k : α → Host.Outcome β Fault Refusal) :
    andThen (.next a) k = k a := rfl
@[simp] theorem andThen_fault {α β : Type} (r : Fault) (k : α → Host.Outcome β Fault Refusal) :
    andThen (.fault r) k = .fault r := rfl
@[simp] theorem andThen_refused {α β : Type} (r : Refusal) (k : α → Host.Outcome β Fault Refusal) :
    andThen (.refused r) k = .refused r := rfl

/-- Reading at four listed bytes answers their big-endian word (20_memory.md R43 (3)). -/
theorem memRead_of_bytesAt {m : Memory} {a : Addr} {b0 b1 b2 b3 : Byte} (h : BytesAt m a b0 b1 b2 b3) :
    memRead m a = .next (beWord b0 b1 b2 b3) := by
  obtain ⟨ha, h0, h1, h2, h3⟩ := h
  have : ¬ Config.lastWordAddr.toNat < a.toNat := by simpa [Config.lastWordAddr] using ha
  simp [memRead, this, h0, h1, h2, h3]

/-- A read that answers a word found its four bytes. -/
theorem memRead_eq_next {m : Memory} {a : Addr} {w : Word} (h : memRead m a = .next w) :
    ∃ b0 b1 b2 b3, BytesAt m a b0 b1 b2 b3 ∧ w = beWord b0 b1 b2 b3 := by
  unfold memRead at h
  split at h
  · cases h
  · next ha =>
    split at h
    · next b0 b1 b2 b3 h0 h1 h2 h3 =>
      cases h
      exact ⟨b0, b1, b2, b3, ⟨by simpa [Config.lastWordAddr] using ha, h0, h1, h2, h3⟩, rfl⟩
    · cases h

/-- What a data read answers, and the state it leaves (20_memory.md R43, R46, R49). -/
theorem dataRead_eq_next {s t : State} {a : Addr} {w : Word} (h : dataRead s a = .next (w, t)) :
    (s.memMode = .closedWorld ∧ memRead s.mem a = .next w ∧ t = s) ∨
    (s.memMode = .openWorld ∧ (∃ v, memRead s.mem a = .next v) ∧ w = s.oracleWord ∧ t = s.skipOracle 4) := by
  obtain ⟨v, hv, h⟩ := andThen_eq_next.mp h
  cases hm : s.memMode <;> simp only [hm] at h <;> cases h
  · exact .inl ⟨rfl, hv, rfl⟩
  · exact .inr ⟨rfl, ⟨v, hv⟩, rfl, rfl⟩

/-- What a load without update answers (40_load_word_and_zero.md R90). -/
theorem loadZero_eq_next {rt : Reg} {ea : Dword} {s t : State} (h : loadZero rt ea s = .next t) :
    ∃ w u, dataRead s (memAddr ea) = .next (w, u) ∧ t = (u.setGpr rt (zeroExtend w)).advancePc := by
  obtain ⟨⟨w, u⟩, hw, h⟩ := andThen_eq_next.mp h
  cases h
  exact ⟨w, u, hw, rfl⟩

/-- What a load with update answers; it answers nothing for an invalid form (40_load_word_and_zero.md R90, R92). -/
theorem loadZeroUpdate_eq_next {rt ra : Reg} {ea : Dword} {s t : State} (h : loadZeroUpdate rt ra ea s = .next t) :
    ra ≠ 0 ∧ ra ≠ rt ∧ ∃ w u, dataRead s (memAddr ea) = .next (w, u) ∧
      t = ((u.setGpr rt (zeroExtend w)).setGpr ra (updateValue ea)).advancePc := by
  unfold loadZeroUpdate at h
  split at h
  · cases h
  · next hra =>
    obtain ⟨⟨w, u⟩, hw, h⟩ := andThen_eq_next.mp h
    cases h
    exact ⟨fun e => hra (.inl e), fun e => hra (.inr e), w, u, hw, rfl⟩

/-- When a fetch answers a word (60_exceptions.md R113 (0) to (3)). -/
theorem fetchWord_eq_next {s : State} {insn : Word} : fetchWord s = .next insn ↔
    s.pc ≠ s.endPc ∧ s.pc.toNat % 4 = 0 ∧ s.pc ≠ Config.lastWordAddr ∧ memRead s.mem s.pc = .next insn := by
  unfold fetchWord
  split
  · simp_all
  · split
    · simp_all
    · split <;> simp_all

/-- When a fetched word decodes (60_exceptions.md R113 (4)). -/
theorem decodeFetched_eq_next {insn : Word} {i : Instr} :
    decodeFetched insn = .next i ↔ decodeWord insn = .ok i := by
  unfold decodeFetched
  split <;> simp_all

/-- A step that completes ran the decoded instruction (60_exceptions.md R113). -/
theorem step_eq_next {s t : State} : step s = .next t ↔
    ∃ insn i, fetchWord s = .next insn ∧ decodeWord insn = .ok i ∧ exec i s = .next t := by
  simp only [step, fetchInstr, andThen_eq_next, decodeFetched_eq_next]
  constructor
  · rintro ⟨i, ⟨insn, hf, hd⟩, he⟩; exact ⟨insn, i, hf, hd, he⟩
  · rintro ⟨insn, i, hf, hd, he⟩; exact ⟨i, ⟨insn, hf, hd⟩, he⟩

end Sys2Proof.Machine
end

