-- ==== Sys2Proof/Laws/Exec.lean ====
section
/-! SUPPORT. The three outcomes of a memory read, and the one form the four meanings share (40_load_word_and_zero.md R90). -/

namespace Sys2Proof.Machine

/-- A read past the top of the address space is refused (20_memory.md R43 (1)). -/
theorem memRead_of_past_top {m : Memory} {a : Addr} (h : 0xFFFFFFFC < a.toNat) :
    memRead m a = .refused .accessWrapsAddressSpace := by
  unfold memRead
  rw [if_pos (by simpa [Config.lastWordAddr] using h)]

/-- A read that touches a byte outside `Mapped` is stuck (20_memory.md R43 (2)). -/
theorem memRead_of_someUnmapped {m : Memory} {a : Addr} (h : a.toNat ≤ 0xFFFFFFFC) (hu : SomeUnmapped m a) :
    memRead m a = .fault (.unmapped a) := by
  unfold memRead
  rw [if_neg (by simpa [Config.lastWordAddr] using h)]
  obtain ⟨k, hk, hn⟩ := hu
  split
  · interval_cases k <;> simp_all
  · rfl

/-- A word is mapped exactly when memory holds four bytes there (20_memory.md R48). -/
theorem wordMapped_iff_bytesAt {m : Memory} {a : Addr} :
    WordMapped m a ↔ ∃ b0 b1 b2 b3, BytesAt m a b0 b1 b2 b3 := by
  constructor
  · rintro ⟨h, hk⟩
    have k0 := hk 0 (by decide)
    have k1 := hk 1 (by decide)
    have k2 := hk 2 (by decide)
    have k3 := hk 3 (by decide)
    simp only [Option.ne_none_iff_exists'] at k0 k1 k2 k3
    obtain ⟨b0, h0⟩ := k0
    obtain ⟨b1, h1⟩ := k1
    obtain ⟨b2, h2⟩ := k2
    obtain ⟨b3, h3⟩ := k3
    exact ⟨b0, b1, b2, b3, h, by simpa using h0, h1, h2, h3⟩
  · rintro ⟨b0, b1, b2, b3, h, h0, h1, h2, h3⟩
    refine ⟨h, fun k hk => ?_⟩
    interval_cases k <;> simp_all

/-- Every address falls under one of the tests of a read (20_memory.md R43). -/
theorem read_cases (m : Memory) (a : Addr) :
    0xFFFFFFFC < a.toNat ∨ (a.toNat ≤ 0xFFFFFFFC ∧ SomeUnmapped m a) ∨ WordMapped m a := by
  rcases Nat.lt_or_ge 0xFFFFFFFC a.toNat with h | h
  · exact .inl h
  · by_cases u : SomeUnmapped m a
    · exact .inr (.inl ⟨h, u⟩)
    · exact .inr (.inr ⟨h, fun k hk hn => u ⟨k, hk, hn⟩⟩)

/-- The register an instruction writes its effective address back to (40_load_word_and_zero.md R90, table). -/
def writeBackReg : Instr → Option Reg
  | .lwz _ _ _ => none
  | .lwzu _ ra _ => some ra
  | .lwzux _ ra _ => some ra
  | .lwzx _ _ _ => none

/-- The write-back of an effective address, if there is one. -/
def writeBack (r : Option Reg) (ea : Dword) (s : State) : State :=
  match r with
  | none => s
  | some ra => s.setGpr ra (updateValue ea)

@[simp] theorem writeBack_pc (r : Option Reg) (ea : Dword) (s : State) : (writeBack r ea s).pc = s.pc := by
  cases r <;> rfl
@[simp] theorem writeBack_mem (r : Option Reg) (ea : Dword) (s : State) : (writeBack r ea s).mem = s.mem := by
  cases r <;> rfl
@[simp] theorem writeBack_endPc (r : Option Reg) (ea : Dword) (s : State) :
    (writeBack r ea s).endPc = s.endPc := by cases r <;> rfl
@[simp] theorem writeBack_memMode (r : Option Reg) (ea : Dword) (s : State) :
    (writeBack r ea s).memMode = s.memMode := by cases r <;> rfl
@[simp] theorem writeBack_oracleNext (r : Option Reg) (ea : Dword) (s : State) :
    (writeBack r ea s).oracleNext = s.oracleNext := by cases r <;> rfl

/-- Reading a register after a write-back. -/
theorem writeBack_gpr (r : Option Reg) (ea : Dword) (s : State) (q : Reg) :
    (writeBack r ea s).gpr q = if r = some q then updateValue ea else s.gpr q := by
  cases r with
  | none => simp [writeBack]
  | some ra => simp only [writeBack, gpr_setGpr, Option.some.injEq, eq_comm]

/-- In a valid form the written-back register is not the destination (30_encoding.md R69). -/
theorem writeBackReg_ne_destination {i : Instr} (h : i.wellFormed = true) : writeBackReg i ≠ some (destination i) := by
  cases i <;> simp_all [writeBackReg, destination, Instr.wellFormed]

/-- The form the meanings share on valid forms (40_load_word_and_zero.md R90). -/
theorem exec_of_wellFormed {i : Instr} (h : i.wellFormed = true) (s : State) :
    exec i s = andThen (dataRead s (memAddr (effectiveAddr i s))) fun p =>
      .next (writeBack (writeBackReg i) (effectiveAddr i s) (p.2.setGpr (destination i) (zeroExtend p.1))).advancePc := by
  cases i <;> simp_all [exec, execLwz, execLwzu, execLwzux, execLwzx, loadZero, loadZeroUpdate, effectiveAddr,
    destination, writeBackReg, writeBack, Instr.wellFormed]

/-- What an instruction that completes has done (40_load_word_and_zero.md R90). -/
theorem exec_eq_next {i : Instr} {s t : State} (h : exec i s = .next t) :
    i.wellFormed = true ∧ ∃ w u, dataRead s (memAddr (effectiveAddr i s)) = .next (w, u) ∧
      t = (writeBack (writeBackReg i) (effectiveAddr i s) (u.setGpr (destination i) (zeroExtend w))).advancePc := by
  have hw : i.wellFormed = true := by
    cases i with
    | lwz => rfl
    | lwzx => rfl
    | lwzu rt ra d => have := loadZeroUpdate_eq_next h; simp [Instr.wellFormed, this.1, this.2.1]
    | lwzux rt ra rb => have := loadZeroUpdate_eq_next h; simp [Instr.wellFormed, this.1, this.2.1]
  rw [exec_of_wellFormed hw] at h
  obtain ⟨⟨w, u⟩, hr, h⟩ := andThen_eq_next.mp h
  cases h
  exact ⟨hw, w, u, hr, rfl⟩

end Sys2Proof.Machine
end

