-- ==== Sys2Proof/Laws/Memory.lean ====
section
/-! SUPPORT. The laws of memory: read after write, and every operation keeps the canonical form (10_state.md R28). -/

namespace Sys2Proof.Machine

@[simp] theorem memory_read_nil (a : Addr) : Memory.read [] a = none := rfl

theorem memory_read_cons (k : Nat) (b : Byte) (m : Memory) (a : Addr) :
    Memory.read ((k, b) :: m) a = if k = a.toNat then some b else Memory.read m a := rfl

/-- An address below every listed one reads as unlisted. -/
theorem memory_read_of_below (m : Memory) (a : Addr) (h : ∀ c ∈ m, a.toNat < c.1) : Memory.read m a = none := by
  induction m with
  | nil => rfl
  | cons c m ih =>
    obtain ⟨k, b⟩ := c
    have hk : k ≠ a.toNat := (h (k, b) (by simp)).ne'
    simpa [memory_read_cons, hk] using ih fun e he => h e (by simp [he])

/-- The address written reads as the byte written. -/
theorem memory_read_write_same (m : Memory) (a : Addr) (b : Byte) : Memory.read (Memory.write m a b) a = some b := by
  induction m with
  | nil => simp [Memory.write, memory_read_cons]
  | cons c m ih =>
    obtain ⟨k, c⟩ := c
    simp only [Memory.write]
    split
    · next h => simp [memory_read_cons, ih, h.ne]
    · split
      · next h => simp [memory_read_cons, h]
      · simp [memory_read_cons]

/-- A write leaves every other address alone. -/
theorem memory_read_write_ne (m : Memory) {a e : Addr} (b : Byte) (h : e ≠ a) :
    Memory.read (Memory.write m a b) e = Memory.read m e := by
  have h' : a.toNat ≠ e.toNat := fun q => h (BitVec.eq_of_toNat_eq q.symm)
  induction m with
  | nil => simp [Memory.write, memory_read_cons, h']
  | cons c m ih =>
    obtain ⟨k, c⟩ := c
    simp only [Memory.write]
    split
    · simp [memory_read_cons, ih]
    · split
      · next hk => subst hk; simp [memory_read_cons, h']
      · simp [memory_read_cons, h']

/-- What a write lists: the address written, or an entry listed before. -/
theorem memory_mem_write {m : Memory} {a : Addr} {b : Byte} {c : Host.Cell} (h : c ∈ Memory.write m a b) :
    c.1 = a.toNat ∨ c ∈ m := by
  induction m with
  | nil => left; simp [Memory.write] at h; simp [h]
  | cons d m ih =>
    obtain ⟨k, e⟩ := d
    simp only [Memory.write] at h
    split at h
    · rcases List.mem_cons.mp h with rfl | h
      · simp
      · rcases ih h with h | h <;> simp [h]
    · split at h <;> rcases List.mem_cons.mp h with rfl | h <;> simp_all

/-- A write keeps the canonical form. -/
theorem memory_wf_write {m : Memory} (h : Memory.wf m) (a : Addr) (b : Byte) : Memory.wf (Memory.write m a b) := by
  refine ⟨?_, fun c hc => ?_⟩
  · have hp := h.1
    clear h
    induction m with
    | nil => simp [Memory.write]
    | cons d m ih =>
      obtain ⟨k, e⟩ := d
      obtain ⟨hk, hm⟩ := List.pairwise_cons.mp hp
      simp only [Memory.write]
      split
      · next hlt =>
        refine List.pairwise_cons.mpr ⟨fun c hc => ?_, ih hm⟩
        rcases memory_mem_write hc with h | h
        · simpa [h] using hlt
        · exact hk c h
      · split
        · exact List.pairwise_cons.mpr ⟨hk, hm⟩
        · next h1 h2 =>
          refine List.pairwise_cons.mpr ⟨fun c hc => ?_, hp⟩
          have hak : a.toNat < k := by omega
          rcases List.mem_cons.mp hc with rfl | hc
          · exact hak
          · exact hak.trans (hk c hc)
  · rcases memory_mem_write hc with h' | h'
    · simpa [h'] using a.isLt
    · exact h.2 c h'

/-- Placing a word keeps the canonical form. -/
theorem memory_wf_writeWord {m : Memory} (h : Memory.wf m) (a : Addr) (w : Word) :
    Memory.wf (Memory.writeWord m a w) :=
  memory_wf_write (memory_wf_write (memory_wf_write (memory_wf_write h _ _) _ _) _ _) _ _

/-- Memory at reset is in canonical form. -/
theorem memory_wf_reset : Memory.wf State.reset.mem := by decide

end Sys2Proof.Machine
end

