-- ==== Sys2Proof/Laws/PerInstr.lean ====
section
/-! SUPPORT. Per instruction: the fields of its encoded word read back as its operands (30_encoding.md R63). -/

namespace Sys2Proof.Laws

/-- The encoded word's primary opcode, register fields and last field are the instruction's (30_encoding.md R63). -/
def EncodedFields.Statement (i : Instr) : Prop :=
  match i with
  | .lwz rt ra d => fieldOPCD (encode i) = 32 ∧ fieldRT (encode i) = rt ∧ fieldRA (encode i) = ra ∧
      fieldD (encode i) = d
  | .lwzu rt ra d => fieldOPCD (encode i) = 33 ∧ fieldRT (encode i) = rt ∧ fieldRA (encode i) = ra ∧
      fieldD (encode i) = d
  | .lwzux rt ra rb => fieldOPCD (encode i) = 31 ∧ fieldRT (encode i) = rt ∧ fieldRA (encode i) = ra ∧
      fieldRB (encode i) = rb ∧ fieldXO (encode i) = 55 ∧ fieldRc (encode i) = 0
  | .lwzx rt ra rb => fieldOPCD (encode i) = 31 ∧ fieldRT (encode i) = rt ∧ fieldRA (encode i) = ra ∧
      fieldRB (encode i) = rb ∧ fieldXO (encode i) = 23 ∧ fieldRc (encode i) = 0

/-- The fields of a D form word (30_encoding.md R63). -/
theorem encodeD_fields (opcd : Nat) (ho : opcd < 64) (rt ra : Reg) (d : Disp) :
    fieldOPCD (encodeD opcd rt ra d) = opcd ∧ fieldRT (encodeD opcd rt ra d) = rt ∧
      fieldRA (encodeD opcd rt ra d) = ra ∧ fieldD (encodeD opcd rt ra d) = d := by
  have hd := d.isLt
  refine ⟨?_, Fin.ext ?_, Fin.ext ?_, BitVec.eq_of_toNat_eq ?_⟩ <;>
    simp only [fieldOPCD, fieldRT, fieldRA, fieldD, bitField, encodeD, BitVec.toNat_ofNat, Fin.ofNat] <;> omega

/-- The fields of an X form word (30_encoding.md R63). -/
theorem encodeX_fields (opcd xo rc : Nat) (ho : opcd < 64) (hx : xo < 1024) (hc : rc < 2) (rt ra rb : Reg) :
    fieldOPCD (encodeX opcd rt ra rb xo rc) = opcd ∧ fieldRT (encodeX opcd rt ra rb xo rc) = rt ∧
      fieldRA (encodeX opcd rt ra rb xo rc) = ra ∧ fieldRB (encodeX opcd rt ra rb xo rc) = rb ∧
      fieldXO (encodeX opcd rt ra rb xo rc) = xo ∧ fieldRc (encodeX opcd rt ra rb xo rc) = rc := by
  refine ⟨?_, Fin.ext ?_, Fin.ext ?_, Fin.ext ?_, ?_, ?_⟩ <;>
    simp only [fieldOPCD, fieldRT, fieldRA, fieldRB, fieldXO, fieldRc, bitField, encodeX, BitVec.toNat_ofNat,
      Fin.ofNat] <;> omega

theorem EncodedFields.lwz (rt ra : Reg) (d : Disp) : EncodedFields.Statement (.lwz rt ra d) :=
  encodeD_fields 32 (by decide) rt ra d

theorem EncodedFields.lwzu (rt ra : Reg) (d : Disp) : EncodedFields.Statement (.lwzu rt ra d) :=
  encodeD_fields 33 (by decide) rt ra d

theorem EncodedFields.lwzux (rt ra rb : Reg) : EncodedFields.Statement (.lwzux rt ra rb) :=
  encodeX_fields 31 55 0 (by decide) (by decide) (by decide) rt ra rb

theorem EncodedFields.lwzx (rt ra rb : Reg) : EncodedFields.Statement (.lwzx rt ra rb) :=
  encodeX_fields 31 23 0 (by decide) (by decide) (by decide) rt ra rb

end Sys2Proof.Laws
end

