-- ==== Sys2Proof/Machine/Flags.lean ====
section
/-! DEFINITION. Flags: there is nothing to compute. None of `lwz`, `lwzu`, `lwzux`, `lwzx` reads or writes a flag, a
condition code or a status bit, no record form of them exists, and the spec's model carries no flag state (10_state.md
R26, 30_encoding.md R68; log entry 18). The effective-address addition sets no carry and no overflow
(40_load_word_and_zero.md R95). -/
end

