-- ==== Sys2Proof/Tests/Slice0.lean ====
section
/-! SUPPORT. The model's own tests: the ill-formed terms of WellFormed, words written out bit by bit, one step on the
vectors of 95_test_vectors.md, and for every statement with hypotheses a witness that meets them. -/

namespace Sys2Proof.Tests

open Sys2Proof.Machine

/-! ### WellFormed: each check refuses an ill-formed term (30_encoding.md R69), and lets its neighbour pass -/

theorem test_lwzu_ra_zero_illformed : (Instr.lwzu 5 0 0#16).wellFormed = false := by decide
theorem test_lwzu_ra_rt_illformed : (Instr.lwzu 5 5 0#16).wellFormed = false := by decide
theorem test_lwzux_ra_zero_illformed : (Instr.lwzux 5 0 6).wellFormed = false := by decide
theorem test_lwzux_ra_rt_illformed : (Instr.lwzux 5 5 6).wellFormed = false := by decide
theorem test_valid_neighbours : (Instr.lwzu 0 1 0#16).wellFormed = true ∧ (Instr.lwzux 3 4 4).wellFormed = true ∧
    (Instr.lwz 5 5 0#16).wellFormed = true ∧ (Instr.lwzx 4 4 4).wellFormed = true := by decide

/-! ### Decoding: words written out from the field tables of 30_encoding.md R61, R62 and the opcode map R66 -/

/-- `OPCD = 100000`, `RT = 00011`, `RA = 00100`, `D = 0000000000001000` (F1). -/
theorem test_decode_lwz : decodeWord 0b10000000011001000000000000001000#32 = .ok (.lwz 3 4 8#16) := by decide
/-- `OPCD = 100001`, `RT = 11111`, `RA = 00001`, `D = 1111111111111111` (F5). -/
theorem test_decode_lwzu : decodeWord 0b10000111111000011111111111111111#32 = .ok (.lwzu 31 1 0xFFFF#16) := by decide
/-- `OPCD = 011111`, `RT = 00000`, `RA = 00001`, `RB = 00000`, `XO = 0000110111`, `Rc = 0` (F12). -/
theorem test_decode_lwzux : decodeWord 0b01111100000000010000000001101110#32 = .ok (.lwzux 0 1 0) := by decide
/-- `OPCD = 011111`, `RT = 11110`, `RA = 11111`, `RB = 11111`, `XO = 0000010111`, `Rc = 0` (F8). -/
theorem test_decode_lwzx : decodeWord 0b01111111110111111111100000101110#32 = .ok (.lwzx 30 31 31) := by decide
/-- The words of V36 to V42 (95_test_vectors.md 2.3). -/
theorem test_decode_neighbours :
    [0x00000000#32, 0x88000000#32, 0x7C00002C#32, 0x7C000030#32, 0x7C00006C#32, 0x7C000070#32, 0x7C00042E#32].all
      (fun w => match decodeWord w with | .error .notInSpec => true | _ => false) = true := by decide
/-- F1: the bytes `80 64 00 08` read big-endian; the same bytes in the other order are another word, refused. -/
theorem test_decode_bytes : decodeBytes 0x80#8 0x64#8 0x00#8 0x08#8 = .ok (.lwz 3 4 8#16) ∧
    decodeBytes 0x08#8 0x00#8 0x64#8 0x80#8 = .error .notInSpec := by decide
/-- The opcode words of 95_test_vectors.md S1 as table words: two are valid, two are invalid forms. -/
theorem test_decodeTableWord : decodeTableWord 32 0x80000000 = some (.lwz 0 0 0#16) ∧
    decodeTableWord 32 0x7C00002E = some (.lwzx 0 0 0) ∧ decodeTableWord 32 0x84000000 = none ∧
    decodeTableWord 32 0x7C00006E = none ∧ decodeTableWord 32 0x84010000 = some (.lwzu 0 1 0#16) ∧
    decodeTableWord 32 0x7C01006E = some (.lwzux 0 1 0) := by decide

/-! ### One step on the vectors of 95_test_vectors.md 2.1 to 2.3 -/

/-- Bytes at ascending addresses from `a`. -/
def bytesFrom (a : Nat) : List Byte → Memory
  | [] => []
  | b :: bs => (a, b) :: bytesFrom (a + 1) bs

/-- The memory image of 95_test_vectors.md 2.1 with the vector's word at `0x0001_0000`. -/
def image (insn : Word) : Memory :=
  bytesFrom 0 [0x01#8, 0x02#8, 0x03#8, 0x04#8, 0x05#8, 0x06#8, 0x07#8, 0x08#8] ++
  bytesFrom 0x1000 [0x00#8, 0x11#8, 0x22#8, 0x33#8, 0x44#8, 0x55#8, 0x66#8, 0x77#8] ++
  bytesFrom 0x1008 [0x88#8, 0x99#8, 0xAA#8, 0xBB#8, 0xCC#8, 0xDD#8, 0xEE#8, 0xFF#8] ++
  bytesFrom 0x3FFC [0x12#8, 0x34#8, 0x56#8, 0x78#8, 0x80#8, 0x00#8, 0x00#8, 0x00#8] ++
  bytesFrom 0x10000 [wordByte insn 0, wordByte insn 1, wordByte insn 2, wordByte insn 3] ++
  bytesFrom 0xFFFF8000 [0xF0#8, 0x0D#8, 0xFA#8, 0xCE#8] ++
  bytesFrom 0xFFFFFFF8 [0xA1#8, 0xA2#8, 0xA3#8, 0xA4#8, 0xA5#8, 0xA6#8, 0xA7#8, 0xA8#8]

/-- The start state of a vector: its word, and the registers listed; every other register is 0. -/
def vector (insn : Word) (regs : List (Reg × Dword)) : State :=
  regs.foldl (fun s p => s.setGpr p.1 p.2)
    { State.reset with pc := 0x10000#32, endPc := 0x10004#32, mem := image insn }

/-- The step completes in a state that satisfies `p`. -/
def nextHas (o : Host.Outcome State Fault Refusal) (p : State → Bool) : Bool :=
  match o with
  | .next t => p t
  | .fault _ => false
  | .refused _ => false

/-- The step ends in this fault. -/
def faultIs (o : Host.Outcome State Fault Refusal) (f : Fault) : Bool :=
  match o with
  | .next _ => false
  | .fault r => r == f
  | .refused _ => false

/-- The step ends in this refusal. -/
def refusedIs (o : Host.Outcome State Fault Refusal) (q : Refusal) : Bool :=
  match o with
  | .next _ => false
  | .fault _ => false
  | .refused r => r == q

theorem test_image_wf : Memory.wf (image 0x80640008#32) := by decide

/-- V4: `lwz r5, -32768(0)` ignores `r0`, sign-extends `D` and reads at `0xFFFF_8000`. -/
theorem test_lwz_zero_base : nextHas (step (vector 0x80A08000#32 [(0, 0xDEADBEEFDEADBEEF#64)]))
    (fun t => t.gpr 5 == 0x00000000F00DFACE#64 && t.pc == 0x10004#32) = true := by decide
/-- V6: `lwz r4, 0(r4)` with `RT = RA`, and the top bit of the word is not sign-extended. -/
theorem test_lwz_same_register : nextHas (step (vector 0x80840000#32 [(4, 0x4000#64)]))
    (fun t => t.gpr 4 == 0x0000000080000000#64) = true := by decide
/-- V17: `lwzu r5, -8(r6)` reads at `0xFFFF_FFFC` and writes all 64 bits of the address back. -/
theorem test_lwzu_negative_sum : nextHas (step (vector 0x84A6FFF8#32 [(6, 4#64)]))
    (fun t => t.gpr 5 == 0x00000000A5A6A7A8#64 && t.gpr 6 == 0xFFFFFFFFFFFFFFFC#64) = true := by decide
/-- V18: `lwzu r5, 8(r6)` with a carry out of bit 31. -/
theorem test_lwzu_carry : nextHas (step (vector 0x84A60008#32 [(6, 0x00000000FFFFFFFC#64)]))
    (fun t => t.gpr 5 == 0x0000000005060708#64 && t.gpr 6 == 0x0000000100000004#64) = true := by decide
/-- V23: `lwzux r3, r4, r4`, the index is the base. -/
theorem test_lwzux_index_is_base : nextHas (step (vector 0x7C64206E#32 [(4, 0x800#64)]))
    (fun t => t.gpr 3 == 0x0000000000112233#64 && t.gpr 4 == 0x1000#64) = true := by decide
/-- V26: `lwzux r9, r8, r9`, the index is the destination and is read before it is written. -/
theorem test_lwzux_index_is_destination : nextHas (step (vector 0x7D28486E#32 [(8, 0x1000#64), (9, 8#64)]))
    (fun t => t.gpr 8 == 0x1008#64 && t.gpr 9 == 0x000000008899AABB#64) = true := by decide
/-- V31: `lwzx r3, 0, r4` ignores `r0` and reads an unaligned word. -/
theorem test_lwzx_zero_base : nextHas (step (vector 0x7C60202E#32 [(0, 0xDEADBEEFDEADBEEF#64), (4, 0x1002#64)]))
    (fun t => t.gpr 3 == 0x0000000022334455#64) = true := by decide
/-- V32: `lwzx r3, 0, r0` reads `r0` as the index. -/
theorem test_lwzx_index_zero : nextHas (step (vector 0x7C60002E#32 [(0, 0x1000#64)]))
    (fun t => t.gpr 3 == 0x0000000000112233#64) = true := by decide

/-! ### The stops (V12, V14, V20, V28, V29, F19 to F21 and the end of a run) -/

theorem test_stop_past_top : refusedIs (step (vector 0x80640000#32 [(4, 0x00000000FFFFFFFD#64)]))
    .accessWrapsAddressSpace = true := by decide
theorem test_stop_unmapped : faultIs (step (vector 0x80640000#32 [(4, 0x100E#64)])) (.unmapped 0x100E#32) = true := by
  decide
theorem test_stop_invalid_form : refusedIs (step (vector 0x84A00000#32 [])) .invalidForm = true ∧
    refusedIs (step (vector 0x7CA5306E#32 [(5, 0x1000#64)])) .invalidForm = true := by decide
theorem test_stop_reserved_rc : refusedIs (step (vector 0x7C64286F#32 [(4, 0x1000#64)])) .reservedRc = true := by
  decide
theorem test_stop_pc_misaligned : refusedIs (step { vector 0x80640008#32 [] with pc := 0x10002#32 }) .pcMisaligned =
    true := by decide
theorem test_stop_pc_overflow : refusedIs (step { vector 0x80640008#32 [] with pc := 0xFFFFFFFC#32 }) .pcOverflow =
    true := by decide
theorem test_stop_fetch_unmapped : faultIs (step { vector 0x80640008#32 [] with pc := 0x20000#32 })
    (.unmapped 0x20000#32) = true := by decide
theorem test_stop_run_over : faultIs (step { vector 0x80640008#32 [] with pc := 0x10004#32 }) .runOver = true := by
  decide
/-- The first instruction after reset, one valid word of each row. -/
theorem test_withFetchWord : [0x80000000, 0x84010000, 0x7C01006E, 0x7C00002E].all
    (fun w => nextHas (step (State.reset.withFetchWord 32 w)) (fun t => t.pc == 4#32)) = true := by decide

/-! ### Witnesses: for each statement with hypotheses, a state and operands that meet them -/

/-- The start state of V1, `lwz r3, 8(r4)`. -/
def startLwz : State := vector 0x80640008#32 [(4, 0x1000#64)]
/-- The start state of V15, `lwzu r5, 4(r6)`. -/
def startLwzu : State := vector 0x84A60004#32 [(6, 0x1000#64)]
/-- The start state of V22, `lwzux r7, r8, r9`. -/
def startLwzux : State := vector 0x7CE8486E#32 [(8, 0x1000#64), (9, 0xC#64)]
/-- The start state of V30, `lwzx r10, r11, r12`. -/
def startLwzx : State := vector 0x7D4B602E#32 [(11, 0x4000#64), (12, 0xFFFFFFFFFFFFFFFC#64)]
/-- The open world over the same memory. -/
def openState : State := { startLwz with memMode := .openWorld }
/-- A memory that holds the oracle's first four bytes at `0x0000_1008`. -/
def oracleState : State :=
  { openState with mem := bytesFrom 0x1008 [Config.oracleByte 0, Config.oracleByte 1, Config.oracleByte 2, Config.oracleByte 3] }

theorem witness_BitFieldIsSlice : (0 ≤ 5 ∧ 5 ≤ 31) ∧ (31 ≤ 31 ∧ 31 ≤ 31) ∧ (0 ≤ 31 ∧ 31 ≤ 31) := by decide
theorem witness_FieldsTileTheWord : (63 < 64) ∧ (1023 < 1024) ∧ (1 < 2) := by decide
theorem witness_DecodeOfEncodeIsTheInstruction : (Instr.lwzu 31 1 0xFFFF#16).wellFormed = true ∧
    (Instr.lwzux 0 1 0).wellFormed = true ∧ (Instr.lwz 31 31 0x8000#16).wellFormed = true ∧
    (Instr.lwzx 31 31 31).wellFormed = true := by decide
theorem witness_EncodeOfDecodedIsTheWord : decodeWord 0x7C01006E#32 = .ok (.lwzux 0 1 0) := by decide
theorem witness_DecodedInstructionsAreWellFormed : decodeWord 0x87E1FFFF#32 = .ok (.lwzu 31 1 0xFFFF#16) := by decide
theorem witness_DecodeFollowsMasks :
    0x83FFFFFF#32 &&& 0xFC000000#32 = 0x80000000#32 ∧ 0x87FFFFFF#32 &&& 0xFC000000#32 = 0x84000000#32 ∧
    0x7FFFF86E#32 &&& 0xFC0007FF#32 = 0x7C00006E#32 ∧ 0x7FFFF82E#32 &&& 0xFC0007FF#32 = 0x7C00002E#32 ∧
    0x7FFFF86F#32 &&& 0xFC0007FF#32 = 0x7C00006F#32 ∧ 0x7C00002F#32 &&& 0xFC0007FF#32 = 0x7C00002F#32 ∧
    (0x88000000#32 &&& 0xFC000000#32 ≠ 0x80000000#32 ∧ 0x88000000#32 &&& 0xFC000000#32 ≠ 0x84000000#32 ∧
      0x88000000#32 &&& 0xFC0007FE#32 ≠ 0x7C00006E#32 ∧ 0x88000000#32 &&& 0xFC0007FE#32 ≠ 0x7C00002E#32) := by decide
theorem witness_OpcodeRowsDoNotOverlap : decodeWord 0x7FFEF86E#32 = .ok (.lwzux 31 30 31) ∧
    decodeWord 0x83FF7FFF#32 = .ok (.lwz 31 31 0x7FFF#16) := by decide
theorem witness_DecodeTestsInOrder :
    (0x83FF7FFF#32).toNat / 2 ^ 26 = 32 ∧
    ((0x87FFFFFF#32).toNat / 2 ^ 26 = 33 ∧ fieldRA 0x87FFFFFF#32 = fieldRT 0x87FFFFFF#32) ∧
    ((0x84010000#32).toNat / 2 ^ 26 = 33 ∧ fieldRA 0x84010000#32 ≠ 0 ∧ fieldRA 0x84010000#32 ≠ fieldRT 0x84010000#32) ∧
    ((0x7C00002F#32).toNat / 2 ^ 26 = 31 ∧ (0x7C00002F#32).toNat / 2 % 1024 = 23 ∧ (0x7C00002F#32).toNat % 2 = 1) ∧
    ((0x7C00002E#32).toNat / 2 ^ 26 = 31 ∧ (0x7C00002E#32).toNat / 2 % 1024 = 23 ∧ (0x7C00002E#32).toNat % 2 = 0) ∧
    ((0x7C00006F#32).toNat / 2 ^ 26 = 31 ∧ (0x7C00006F#32).toNat / 2 % 1024 = 55 ∧ (0x7C00006F#32).toNat % 2 = 1) ∧
    ((0x7C00006E#32).toNat / 2 ^ 26 = 31 ∧ (0x7C00006E#32).toNat / 2 % 1024 = 55 ∧ (0x7C00006E#32).toNat % 2 = 0 ∧
      fieldRA 0x7C00006E#32 = 0) ∧
    ((0x7C01006E#32).toNat / 2 ^ 26 = 31 ∧ (0x7C01006E#32).toNat / 2 % 1024 = 55 ∧ (0x7C01006E#32).toNat % 2 = 0 ∧
      fieldRA 0x7C01006E#32 ≠ 0 ∧ fieldRA 0x7C01006E#32 ≠ fieldRT 0x7C01006E#32) ∧
    ((0x7C000030#32).toNat / 2 ^ 26 ≠ 32 ∧ (0x7C000030#32).toNat / 2 ^ 26 ≠ 33 ∧
      ¬ ((0x7C000030#32).toNat / 2 % 1024 = 23 ∨ (0x7C000030#32).toNat / 2 % 1024 = 55)) := by decide
theorem witness_RecordFormsAreRefused : (0x7C64286F#32).toNat / 2 ^ 26 = 31 ∧ (0x7C64286F#32).toNat / 2 % 1024 = 55 ∧
    (0x7C64286F#32).toNat % 2 = 1 ∧ fetchWord (vector 0x7C64286F#32 []) = .next 0x7C64286F#32 :=
  ⟨by decide, by decide, by decide, rfl⟩
theorem witness_InvalidUpdateFormsAreRefused :
    ((0x84A00000#32).toNat / 2 ^ 26 = 33 ∧ fieldRA 0x84A00000#32 = 0 ∧
      fetchWord (vector 0x84A00000#32 []) = .next 0x84A00000#32) ∧
    ((0x7CA5306E#32).toNat / 2 ^ 26 = 31 ∧ (0x7CA5306E#32).toNat / 2 % 1024 = 55 ∧ (0x7CA5306E#32).toNat % 2 = 0 ∧
      fieldRA 0x7CA5306E#32 = fieldRT 0x7CA5306E#32 ∧
      fetchWord (vector 0x7CA5306E#32 []) = .next 0x7CA5306E#32) :=
  ⟨⟨by decide, by decide, rfl⟩, by decide, by decide, by decide, by decide, rfl⟩
theorem witness_OtherWordsAreNotInSpec :
    0x88000000#32 &&& 0xFC000000#32 ≠ 0x80000000#32 ∧ 0x88000000#32 &&& 0xFC000000#32 ≠ 0x84000000#32 ∧
    0x88000000#32 &&& 0xFC0007FE#32 ≠ 0x7C00006E#32 ∧ 0x88000000#32 &&& 0xFC0007FE#32 ≠ 0x7C00002E#32 ∧
    fetchWord (vector 0x88000000#32 []) = .next 0x88000000#32 :=
  ⟨by decide, by decide, by decide, by decide, rfl⟩

/-- The last word of the space, the first bytes above it, an unmapped word, and the open world. -/
theorem witness_DataReadIsMemRead :
    BytesAt startLwz.mem 0xFFFFFFFC#32 0xA5#8 0xA6#8 0xA7#8 0xA8#8 ∧ startLwz.memMode = .closedWorld ∧
    0xFFFFFFFC < (0xFFFFFFFD#32).toNat ∧ 0xFFFFFFFC < (0xFFFFFFFF#32).toNat ∧
    ((0x100E#32).toNat ≤ 0xFFFFFFFC ∧ SomeUnmapped startLwz.mem 0x100E#32) ∧
    BytesAt openState.mem 0x1008#32 0x88#8 0x99#8 0xAA#8 0xBB#8 ∧ openState.memMode = .openWorld := by
  unfold BytesAt SomeUnmapped
  refine ⟨by decide, by decide, by decide, by decide, ⟨by decide, 2, by decide⟩, by decide, by decide⟩
/-- A fetch at `0x0001_0000`, and an unmapped one at the last `pc` a step accepts. -/
theorem witness_FetchIsBigEndianFromMemory :
    (startLwz.pc ≠ startLwz.endPc ∧ startLwz.pc.toNat % 4 = 0 ∧ startLwz.pc.toNat ≠ 0xFFFFFFFC ∧
      BytesAt startLwz.mem startLwz.pc 0x80#8 0x64#8 0x00#8 0x08#8) ∧
    (0xFFFFFFF4#32 ≠ startLwz.endPc ∧ (0xFFFFFFF4#32).toNat % 4 = 0 ∧ SomeUnmapped startLwz.mem 0xFFFFFFF4#32) := by
  unfold BytesAt SomeUnmapped
  exact ⟨by decide, by decide, by decide, 0, by decide⟩
theorem witness_OverlappingWordsShareBytes : ∃ w v u, memRead startLwz.mem 0x1003#32 = .next w ∧
    memRead startLwz.mem (0x1003#32 + 1#32) = .next v ∧ memRead startLwz.mem (0x1003#32 + 4#32) = .next u :=
  ⟨_, _, _, rfl, rfl, rfl⟩
/-- One form each, at addresses 0, 1, 2 and 3 modulo 4. -/
theorem witness_LoadsCompleteAtEveryAlignment :
    (BytesAt startLwz.mem (memAddr (effectiveAddr (.lwz 3 4 0#16) startLwz)) 0x00#8 0x11#8 0x22#8 0x33#8) ∧
    (BytesAt startLwzu.mem (memAddr (effectiveAddr (.lwzu 5 6 1#16) startLwzu)) 0x11#8 0x22#8 0x33#8 0x44#8) ∧
    (BytesAt startLwz.mem (memAddr (effectiveAddr (.lwz 3 4 2#16) startLwz)) 0x22#8 0x33#8 0x44#8 0x55#8) ∧
    (BytesAt startLwz.mem (memAddr (effectiveAddr (.lwz 3 4 3#16) startLwz)) 0x33#8 0x44#8 0x55#8 0x66#8) ∧
    (BytesAt startLwzux.mem (memAddr (effectiveAddr (.lwzux 7 8 9) startLwzux)) 0xCC#8 0xDD#8 0xEE#8 0xFF#8) ∧
    (BytesAt startLwzx.mem (memAddr (effectiveAddr (.lwzx 10 11 12) startLwzx)) 0x12#8 0x34#8 0x56#8 0x78#8) ∧
    (Instr.lwzu 5 6 1#16).wellFormed = true ∧ (Instr.lwzux 7 8 9).wellFormed = true ∧
    startLwz.memMode = .closedWorld := by
  unfold BytesAt
  decide
theorem witness_OpenWorldLoadsTakeOracleBytes : openState.memMode = .openWorld ∧
    (Instr.lwzu 3 4 8#16).wellFormed = true ∧
    WordMapped openState.mem (memAddr (effectiveAddr (.lwzu 3 4 8#16) openState)) ∧
    WordMapped openState.mem (memAddr (effectiveAddr (.lwz 3 4 8#16) openState)) ∧
    WordMapped openState.mem (memAddr (effectiveAddr (.lwzux 3 4 5) openState)) ∧
    WordMapped openState.mem (memAddr (effectiveAddr (.lwzx 3 4 5) openState)) := by
  unfold WordMapped
  decide
theorem witness_LoadsPastTheTopAreRefused :
    0xFFFFFFFC < (memAddr (effectiveAddr (.lwz 3 0 0xFFFD#16) startLwz)).toNat ∧
    0xFFFFFFFC < (memAddr (effectiveAddr (.lwz 3 0 0xFFFF#16) startLwz)).toNat := by decide
theorem witness_UnmappedAccessesAreStuck :
    ((Instr.lwzu 3 4 0xE#16).wellFormed = true ∧
      (memAddr (effectiveAddr (.lwzu 3 4 0xE#16) startLwz)).toNat ≤ 0xFFFFFFFC ∧
      SomeUnmapped startLwz.mem (memAddr (effectiveAddr (.lwzu 3 4 0xE#16) startLwz))) ∧
    (0x20000#32 ≠ startLwz.endPc ∧ (0x20000#32).toNat % 4 = 0 ∧ (0x20000#32).toNat ≠ 0xFFFFFFFC ∧
      SomeUnmapped startLwz.mem 0x20000#32) := by
  unfold SomeUnmapped
  exact ⟨⟨by decide, by decide, 2, by decide⟩, by decide, by decide, by decide, 0, by decide⟩
theorem witness_DataReadsHaveNoSideEffect : (∃ w t, dataRead startLwz 0x1008#32 = .next (w, t)) ∧
    (∃ w t, dataRead openState 0x1008#32 = .next (w, t)) ∧ startLwz.memMode = .closedWorld :=
  ⟨⟨_, _, rfl⟩, ⟨_, _, rfl⟩, rfl⟩
theorem witness_PlacedInstructionRunsNext : State.reset.pc.toNat % 4 = 0 ∧ State.reset.pc.toNat ≠ 0xFFFFFFFC ∧
    decodeWord 0x80640008#32 = .ok (.lwz 3 4 8#16) := by decide
theorem witness_OperandFormsOfRA : (4 : Reg) ≠ 0 ∧ destination (.lwz 0 4 8#16) = 0 ∧
    ∃ t, exec (.lwz 0 4 8#16) startLwz = .next t := ⟨by decide, rfl, _, rfl⟩
theorem witness_LiteralZeroBaseIgnoresR0 : (∃ t, exec (.lwz 0 0 4#16) startLwz = .next t) ∧
    ((4 : Reg) ≠ 0 ∧ ∃ t, exec (.lwzx 3 0 4) startLwz = .next t) ∧
    (∃ f, exec (.lwz 3 0 0x7FFF#16) startLwz = .fault f) ∧
    (∃ q, exec (.lwz 3 0 0xFFFF#16) startLwz = .refused q) :=
  ⟨⟨_, rfl⟩, ⟨by decide, _, rfl⟩, ⟨_, rfl⟩, ⟨_, rfl⟩⟩
theorem witness_AddressIsLowHalfOfEA : (0xDEADBEEF00001008#64).toNat % 2 ^ 32 = (0x1008#64).toNat % 2 ^ 32 := by decide
/-- The four ends of the two reachable ranges, and the addresses just outside them. -/
theorem witness_ZeroBaseReach :
    memAddr (eaLwz startLwz 0 0#16) = 0#32 ∧ memAddr (eaLwz startLwz 0 0x7FFF#16) = 0x7FFF#32 ∧
    memAddr (eaLwz startLwz 0 0x8000#16) = 0xFFFF8000#32 ∧ memAddr (eaLwz startLwz 0 0xFFFF#16) = 0xFFFFFFFF#32 ∧
    ¬ ((0x8000#32).toNat ≤ 0x7FFF ∨ 0xFFFF8000 ≤ (0x8000#32).toNat) ∧
    ¬ ((0xFFFF7FFF#32).toNat ≤ 0x7FFF ∨ 0xFFFF8000 ≤ (0xFFFF7FFF#32).toNat) := by decide
theorem witness_HighHalfOfBaseIsIgnored : (0xDEADBEEF00001000#64).toNat % 2 ^ 32 = (0x1000#64).toNat % 2 ^ 32 ∧
    (∃ t, exec (.lwz 3 4 8#16) (startLwz.setGpr 4 0xDEADBEEF00001000#64) = .next t) ∧
    (∃ t, exec (.lwzx 3 4 4) (startLwz.setGpr 4 0xDEADBEEF00000800#64) = .next t) ∧
    (∃ f, exec (.lwz 3 4 0xE#16) (startLwz.setGpr 4 0xDEADBEEF00001000#64) = .fault f) ∧
    (∃ q, exec (.lwz 3 4 0#16) (startLwz.setGpr 4 0xDEADBEEFFFFFFFFD#64) = .refused q) :=
  ⟨by decide, ⟨_, rfl⟩, ⟨_, rfl⟩, ⟨_, rfl⟩, ⟨_, rfl⟩⟩
theorem witness_EachLoadDoesFourThings : startLwz.memMode = .closedWorld ∧
    BytesAt startLwz.mem ((startLwz.gpr 4 + (8#16).signExtend 64).setWidth 32) 0x88#8 0x99#8 0xAA#8 0xBB#8 ∧
    BytesAt startLwz.mem ((0#64 + (4#16).signExtend 64).setWidth 32) 0x05#8 0x06#8 0x07#8 0x08#8 ∧
    ((6 : Reg) ≠ 0 ∧ (6 : Reg) ≠ 5 ∧
      BytesAt startLwzu.mem ((startLwzu.gpr 6 + (4#16).signExtend 64).setWidth 32) 0x44#8 0x55#8 0x66#8 0x77#8) ∧
    ((8 : Reg) ≠ 0 ∧ (8 : Reg) ≠ 7 ∧
      BytesAt startLwzux.mem ((startLwzux.gpr 8 + startLwzux.gpr 9).setWidth 32) 0xCC#8 0xDD#8 0xEE#8 0xFF#8) ∧
    BytesAt startLwzx.mem ((startLwzx.gpr 11 + startLwzx.gpr 12).setWidth 32) 0x12#8 0x34#8 0x56#8 0x78#8 := by
  unfold BytesAt
  decide
/-- The last word of the space (V11), the byte above it (V12), and a word half unmapped (V14). -/
theorem witness_LwzMeaning :
    BytesAt startLwz.mem ((0#64 + (0xFFFC#16).signExtend 64).setWidth 32) 0xA5#8 0xA6#8 0xA7#8 0xA8#8 ∧
    SomeUnmapped startLwz.mem ((startLwz.gpr 4 + (0xE#16).signExtend 64).setWidth 32) ∧
    ((startLwz.gpr 4 + (0xE#16).signExtend 64).setWidth 32).toNat ≤ 0xFFFFFFFC ∧
    0xFFFFFFFC < ((0#64 + (0xFFFD#16).signExtend 64).setWidth 32).toNat := by
  unfold BytesAt SomeUnmapped
  exact ⟨by decide, ⟨2, by decide⟩, by decide, by decide⟩
theorem witness_LwzuMeaning : (6 : Reg) ≠ 0 ∧ (6 : Reg) ≠ 5 ∧
    BytesAt startLwzu.mem ((startLwzu.gpr 6 + (4#16).signExtend 64).setWidth 32) 0x44#8 0x55#8 0x66#8 0x77#8 ∧
    (SomeUnmapped startLwzu.mem ((startLwzu.gpr 6 + (0xE#16).signExtend 64).setWidth 32) ∧
      ((startLwzu.gpr 6 + (0xE#16).signExtend 64).setWidth 32).toNat ≤ 0xFFFFFFFC) ∧
    0xFFFFFFFC < ((startLwzu.gpr 7 + (0xFFFD#16).signExtend 64).setWidth 32).toNat := by
  unfold BytesAt SomeUnmapped
  exact ⟨by decide, by decide, by decide, ⟨⟨2, by decide⟩, by decide⟩, by decide⟩
theorem witness_LwzuxMeaning : (8 : Reg) ≠ 0 ∧ (8 : Reg) ≠ 7 ∧
    BytesAt startLwzux.mem ((startLwzux.gpr 8 + startLwzux.gpr 9).setWidth 32) 0xCC#8 0xDD#8 0xEE#8 0xFF#8 ∧
    (SomeUnmapped startLwzux.mem ((startLwzux.gpr 8 + startLwzux.gpr 8).setWidth 32) ∧
      ((startLwzux.gpr 8 + startLwzux.gpr 8).setWidth 32).toNat ≤ 0xFFFFFFFC) ∧
    0xFFFFFFFC < (((startLwzux.setGpr 9 0xFFFFFFFFFFFFEFFF#64).gpr 8 +
      (startLwzux.setGpr 9 0xFFFFFFFFFFFFEFFF#64).gpr 9).setWidth 32).toNat := by
  unfold BytesAt SomeUnmapped
  exact ⟨by decide, by decide, by decide, ⟨⟨0, by decide⟩, by decide⟩, by decide⟩
theorem witness_LwzxMeaning :
    BytesAt startLwzx.mem ((startLwzx.gpr 11 + startLwzx.gpr 12).setWidth 32) 0x12#8 0x34#8 0x56#8 0x78#8 ∧
    (SomeUnmapped startLwzx.mem ((startLwzx.gpr 11 + startLwzx.gpr 11).setWidth 32) ∧
      ((startLwzx.gpr 11 + startLwzx.gpr 11).setWidth 32).toNat ≤ 0xFFFFFFFC) ∧
    0xFFFFFFFC < ((0#64 + (startLwzx.setGpr 12 0xFFFFFFFD#64).gpr 12).setWidth 32).toNat := by
  unfold BytesAt SomeUnmapped
  exact ⟨by decide, ⟨⟨0, by decide⟩, by decide⟩, by decide⟩
theorem witness_UpdateFormIsLoadThenWriteBack : (6 : Reg) ≠ 0 ∧ (6 : Reg) ≠ 5 ∧
    (∃ t, exec (.lwzu 5 6 4#16) startLwzu = .next t) ∧ (∃ u, exec (.lwz 5 6 4#16) startLwzu = .next u) ∧
    (∃ t, exec (.lwzux 5 6 0) startLwzu = .next t) := ⟨by decide, by decide, ⟨_, rfl⟩, ⟨_, rfl⟩, ⟨_, rfl⟩⟩
theorem witness_IndexActsAsDisplacement : startLwzx.gpr 12 = (0xFFFC#16).signExtend 64 := by decide

/-- Each of the four completes somewhere: the common hypothesis of the statements about what a completed instruction
did. -/
theorem witness_loads_complete : (∃ t, exec (.lwz 3 4 8#16) startLwz = .next t) ∧
    (∃ t, exec (.lwzu 5 6 4#16) startLwzu = .next t) ∧ (∃ t, exec (.lwzux 7 8 9) startLwzux = .next t) ∧
    (∃ t, exec (.lwzx 10 11 12) startLwzx = .next t) ∧ (∃ t, exec (.lwz 3 4 8#16) openState = .next t) :=
  ⟨⟨_, rfl⟩, ⟨_, rfl⟩, ⟨_, rfl⟩, ⟨_, rfl⟩, ⟨_, rfl⟩⟩
theorem witness_LoadedRegisterIsZeroExtended : ∃ t, exec (.lwzux 7 8 9) startLwzux = .next t := ⟨_, rfl⟩
theorem witness_FrameOfTheLoads : (∃ t, exec (.lwz 3 4 8#16) startLwz = .next t) ∧
    (∃ t, exec (.lwzx 10 11 12) startLwzx = .next t) ∧ (∃ t, exec (.lwzu 5 6 4#16) startLwzu = .next t) ∧
    (∃ t, exec (.lwzux 7 8 9) startLwzux = .next t) := ⟨⟨_, rfl⟩, ⟨_, rfl⟩, ⟨_, rfl⟩, ⟨_, rfl⟩⟩
theorem witness_OraclePositionCountsBytes :
    ((∃ t, exec (.lwz 3 4 8#16) startLwz = .next t) ∧ startLwz.memMode = .closedWorld) ∧
    ((∃ t, exec (.lwz 3 4 8#16) openState = .next t) ∧ openState.memMode = .openWorld) :=
  ⟨⟨⟨_, rfl⟩, rfl⟩, ⟨_, rfl⟩, rfl⟩
/-- The last `pc` before the top, where `pc + 4` does not wrap. -/
theorem witness_EveryLoadAdvancesPcByFour :
    ∃ t, exec (.lwzu 5 6 4#16) { startLwzu with pc := 0xFFFFFFF8#32 } = .next t := ⟨_, rfl⟩
/-- Two states that agree on `r4` and differ in `r3`, `r5` and `pc`: both complete, both stop alike. -/
theorem witness_LoadsDependOnReadRegistersOnly :
    let s' := { (startLwz.setGpr 3 7#64).setGpr 5 9#64 with pc := 0x20000#32 }
    (∀ r ∈ regsRead (.lwz 3 4 8#16), s'.gpr r = startLwz.gpr r) ∧ s'.mem = startLwz.mem ∧
    s'.memMode = startLwz.memMode ∧ s'.oracleNext = startLwz.oracleNext ∧
    (∃ t, exec (.lwz 3 4 8#16) startLwz = .next t) ∧ (∃ f, exec (.lwz 3 4 0xE#16) startLwz = .fault f) ∧
    (∃ q, exec (.lwzu 4 4 8#16) startLwz = .refused q) :=
  ⟨by decide, rfl, rfl, rfl, ⟨_, rfl⟩, ⟨_, rfl⟩, ⟨_, rfl⟩⟩
theorem witness_WriteBackReadingsAgree : (0x00000000FFFFFFFF#64).extractLsb 63 32 = 0#32 := by decide
theorem witness_LoadedPointerIsUsableAtOnce : destination (.lwz 3 4 8#16) ≠ 0 ∧
    ∃ t, exec (.lwz 3 4 8#16) startLwz = .next t := ⟨by decide, _, rfl⟩
theorem witness_OpenWorldCoversClosedWorld : oracleState.memMode = .openWorld ∧
    BytesAt oracleState.mem (memAddr (effectiveAddr (.lwz 3 4 8#16) oracleState)) (Config.oracleByte oracleState.oracleNext)
      (Config.oracleByte (oracleState.oracleNext + 1)) (Config.oracleByte (oracleState.oracleNext + 2))
      (Config.oracleByte (oracleState.oracleNext + 3)) ∧
    ∃ t, exec (.lwz 3 4 8#16) { oracleState with memMode := .closedWorld } = .next t :=
  ⟨rfl, ⟨by decide, rfl, rfl, rfl, rfl⟩, _, rfl⟩

theorem witness_StepRunsTheDecodedInstruction : startLwz.pc ≠ startLwz.endPc ∧ startLwz.pc.toNat % 4 = 0 ∧
    startLwz.pc.toNat ≠ 0xFFFFFFFC ∧ memRead startLwz.mem startLwz.pc = .next 0x80640008#32 ∧
    decodeWord 0x80640008#32 = .ok (.lwz 3 4 8#16) := ⟨by decide, by decide, by decide, rfl, by decide⟩
theorem witness_RunIsOverAtEndPc : { startLwz with pc := 0x10004#32 }.pc = startLwz.endPc := by decide
/-- The three clauses at their boundaries: one past a multiple of 4, the last word, the last word but one. -/
theorem witness_PcIsCheckedAndNeverWraps :
    (0xFFFFFFFD#32 ≠ startLwz.endPc ∧ (0xFFFFFFFD#32).toNat % 4 ≠ 0) ∧
    (0xFFFFFFFC#32 ≠ startLwz.endPc ∧ (0xFFFFFFFC#32).toNat = 0xFFFFFFFC) ∧
    (0xFFFFFFF8#32 ≠ startLwz.endPc ∧ (0xFFFFFFF8#32).toNat % 4 = 0 ∧ (0xFFFFFFF8#32).toNat ≠ 0xFFFFFFFC) := by decide
/-- One state for each check of a step after those of `pc`: an unmapped fetch, the three refusals of decoding, and the
three ends of the data read. -/
theorem witness_StepChecksInOrder :
    SomeUnmapped startLwz.mem 0x20000#32 ∧
    (memRead (image 0x88000000#32) 0x10000#32 = .next 0x88000000#32 ∧ decodeWord 0x88000000#32 = .error .notInSpec) ∧
    (memRead (image 0x7C00002F#32) 0x10000#32 = .next 0x7C00002F#32 ∧ decodeWord 0x7C00002F#32 = .error .reservedRc) ∧
    (memRead (image 0x84A50000#32) 0x10000#32 = .next 0x84A50000#32 ∧ decodeWord 0x84A50000#32 = .error .invalidForm) ∧
    (decodeWord 0x8060FFFD#32 = .ok (.lwz 3 0 0xFFFD#16) ∧
      0xFFFFFFFC < (memAddr (effectiveAddr (.lwz 3 0 0xFFFD#16) startLwz)).toNat) ∧
    (decodeWord 0x80640000#32 = .ok (.lwz 3 4 0#16) ∧
      SomeUnmapped (image 0x80640000#32)
        (memAddr (effectiveAddr (.lwz 3 4 0#16) (vector 0x80640000#32 [(4, 0x2000#64)])))) ∧
    WordMapped startLwz.mem (memAddr (effectiveAddr (.lwz 3 4 8#16) startLwz)) := by
  unfold SomeUnmapped WordMapped
  exact ⟨⟨0, by decide⟩, ⟨rfl, by decide⟩, ⟨rfl, by decide⟩, ⟨rfl, by decide⟩, by decide, ⟨by decide, 0, by decide⟩,
    by decide⟩
theorem witness_StopReasonsAreClosed :
    (∃ q, step (vector 0x84A50000#32 []) = .refused q) ∧ (∃ f, step { startLwz with pc := 0x10004#32 } = .fault f) :=
  ⟨⟨_, rfl⟩, ⟨_, rfl⟩⟩
theorem witness_StepCompletesExactlyWhenItCan : CanStep startLwz := by
  refine ⟨by decide, by decide, by decide, 0x80640008#32, .lwz 3 4 8#16, rfl, by decide, ?_⟩
  unfold WordMapped
  decide
theorem witness_StepKeepsLaunchArguments : ∃ t, step startLwzux = .next t := ⟨_, rfl⟩
theorem witness_StepKeepsTheInvariant : Inv startLwz ∧ ∃ t, step startLwz = .next t :=
  ⟨⟨by decide, by decide, by decide⟩, _, rfl⟩
theorem witness_RunsAreStraightLine : ∃ t, steps 1 startLwz = .next t := ⟨_, rfl⟩

/-- A launch of one instruction, `lwz r3, 8(r4)`, that meets premises P1 to P3. -/
theorem witness_LaunchPremisesGiveACompleteRun : LaunchPremises 1 startLwz := by
  refine ⟨by decide, by decide, by decide, fun k hk => ?_, fun k hk t insn i hs hm hd => ?_⟩
  · obtain rfl : k = 0 := by omega
    exact ⟨0x80640008#32, .lwz 3 4 8#16, rfl, by decide⟩
  · obtain rfl : k = 0 := by omega
    obtain rfl : startLwz = t := by simpa [steps] using hs
    have hw : memRead startLwz.mem startLwz.pc = .next 0x80640008#32 := rfl
    obtain rfl : 0x80640008#32 = insn := by simpa [hw] using hm
    have hl : decodeWord 0x80640008#32 = .ok (.lwz 3 4 8#16) := by decide
    obtain rfl : Instr.lwz 3 4 8#16 = i := by simpa [hl] using hd
    unfold WordMapped
    decide

end Sys2Proof.Tests
end

section

namespace Sys2Proof

/-- The slice of a word from bit `lo` up to bit `hi`, read as a number, is a quotient and a remainder by powers of two
(00_scope.md R7). -/
theorem toNat_extractLsb_eq_div_mod (insn : Word) (hi lo : Nat) :
    (insn.extractLsb hi lo).toNat = insn.toNat / 2 ^ lo % 2 ^ (hi - lo + 1) := by
  rw [BitVec.extractLsb_toNat, Nat.shiftRight_eq_div_pow]

/-- The field `insn{a..b}`, numbered from the most significant end, is the slice `insn[31-a : 31-b]`
(00_scope.md R7). -/
theorem bitField_eq_toNat_extractLsb (insn : Word) {a b : Nat} (hab : a ≤ b) (hb : b ≤ 31) :
    bitField insn a b = (insn.extractLsb (31 - a) (31 - b)).toNat := by
  have width : (31 - a) - (31 - b) = b - a := by omega
  rw [toNat_extractLsb_eq_div_mod, width, bitField]

/-- Settles O2: the slice's quotient and remainder are those that define the field. -/
theorem bitFieldIsSlice : Obligations.BitFieldIsSlice :=
  fun insn _ _ hab hb => ⟨bitField_eq_toNat_extractLsb insn hab hb, rfl⟩

end Sys2Proof

namespace Sys2Proof.Machine

/-- At reset every general register reads as the value that log entry 3 names. -/
@[simp] theorem reset_gpr (r : Reg) : State.reset.gpr r = Config.resetGpr := by
  simp [State.gpr, State.reset]

/-- Settles O54: each field has its value by definition; the registers and memory by their lemmas for all `r`, `a`. -/
theorem resetState : Obligations.ResetState :=
  ⟨rfl, reset_gpr, rfl, rfl, memory_read_nil⟩

end Sys2Proof.Machine
end

namespace Sys2Proof.Machine

/-! ### The effect of a load that completes (40_load_word_and_zero.md R90; 10_state.md R22, R23, R30) -/

/-- `i` completed in `s`, with the effective address `ea`, the answered word `w` and `k` oracle bytes used. -/
def loadEffect (i : Instr) (ea : Dword) (w : Word) (k : Nat) (s : State) : State :=
  (writeBack (writeBackReg i) ea ((s.skipOracle k).setGpr (destination i) (zeroExtend w))).advancePc

section
variable (i : Instr) (ea : Dword) (w : Word) (k : Nat) (s : State)

@[simp] theorem loadEffect_pc : (loadEffect i ea w k s).pc = s.pc + 4#32 := by simp [loadEffect]
@[simp] theorem loadEffect_mem : (loadEffect i ea w k s).mem = s.mem := by simp [loadEffect]
@[simp] theorem loadEffect_endPc : (loadEffect i ea w k s).endPc = s.endPc := by simp [loadEffect]
@[simp] theorem loadEffect_memMode : (loadEffect i ea w k s).memMode = s.memMode := by simp [loadEffect]

theorem loadEffect_gpr (r : Reg) : (loadEffect i ea w k s).gpr r =
    if writeBackReg i = some r then updateValue ea
    else if r = destination i then zeroExtend w else s.gpr r := by
  simp [loadEffect, writeBack_gpr, gpr_setGpr]

/-- The only use a load makes of `pc` is to add 4 to it. -/
theorem loadEffect_withPc (p : Addr) :
    loadEffect i ea w k { s with pc := p } = { loadEffect i ea w k s with pc := p + 4#32 } := by
  cases i <;> rfl

end

/-- The registers written are the destination and the one written back to. -/
theorem mem_regsWritten {i : Instr} {r : Reg} : r ∈ regsWritten i ↔ r = destination i ∨ writeBackReg i = some r := by
  cases i <;> simp [regsWritten, destination, writeBackReg, eq_comm]

/-- What is written to a register does not depend on the rest of the state. -/
theorem loadEffect_gpr_of_mem {i : Instr} {r : Reg} (h : r ∈ regsWritten i) (ea : Dword) (w : Word) (k : Nat)
    (s s' : State) : (loadEffect i ea w k s').gpr r = (loadEffect i ea w k s).gpr r := by
  rcases mem_regsWritten.mp h with h | h <;> simp [loadEffect_gpr, h]

theorem loadEffect_gpr_of_not_mem {i : Instr} {r : Reg} (h : r ∉ regsWritten i) (ea : Dword) (w : Word) (k : Nat)
    (s : State) : (loadEffect i ea w k s).gpr r = s.gpr r := by
  obtain ⟨hd, hb⟩ := not_or.mp (mt mem_regsWritten.mpr h)
  simp [loadEffect_gpr, hd, hb]

/-- Every completed instruction is `loadEffect` at its own effective address. -/
theorem exec_eq_loadEffect {i : Instr} {s t : State} (h : exec i s = .next t) :
    ∃ w k, t = loadEffect i (effectiveAddr i s) w k s := by
  obtain ⟨-, w, u, hr, rfl⟩ := exec_eq_next h
  rcases dataRead_eq_next hr with ⟨-, -, rfl⟩ | ⟨-, -, -, rfl⟩
  · exact ⟨w, 0, rfl⟩
  · exact ⟨w, 4, rfl⟩

section
variable {i : Instr} {s t : State} (h : exec i s = .next t)
include h

theorem exec_pc : t.pc = s.pc + 4#32 := by
  obtain ⟨w, k, rfl⟩ := exec_eq_loadEffect h
  simp

theorem exec_mem : t.mem = s.mem := by
  obtain ⟨w, k, rfl⟩ := exec_eq_loadEffect h
  simp

theorem exec_endPc : t.endPc = s.endPc := by
  obtain ⟨w, k, rfl⟩ := exec_eq_loadEffect h
  simp

theorem exec_memMode : t.memMode = s.memMode := by
  obtain ⟨w, k, rfl⟩ := exec_eq_loadEffect h
  simp

theorem exec_gpr_of_not_mem_regsWritten {r : Reg} (hr : r ∉ regsWritten i) : t.gpr r = s.gpr r := by
  obtain ⟨w, k, rfl⟩ := exec_eq_loadEffect h
  exact loadEffect_gpr_of_not_mem hr _ w k s

end

/-! ### What the outcome of a load depends on (10_state.md R22; 20_memory.md R43, R46) -/

/-- Data reads answer alike in two states: same memory, same mode, same oracle position (log entry 7). -/
structure ReadsAlike (s s' : State) : Prop where
  mem : s'.mem = s.mem
  memMode : s'.memMode = s.memMode
  oracleNext : s'.oracleNext = s.oracleNext

/-- Such states answer a data read with the same word and use the same oracle bytes, or stop it alike. -/
theorem ReadsAlike.dataRead_cases {s s' : State} (hs : ReadsAlike s s') (a : Addr) :
    (∃ w k, dataRead s a = .next (w, s.skipOracle k) ∧ dataRead s' a = .next (w, s'.skipOracle k)) ∨
    (∃ f, dataRead s a = .fault f ∧ dataRead s' a = .fault f) ∨
    (∃ q, dataRead s a = .refused q ∧ dataRead s' a = .refused q) := by
  have oracle : s'.oracleWord = s.oracleWord := by simp only [State.oracleWord, hs.oracleNext]
  unfold dataRead
  rw [hs.mem, hs.memMode]
  cases memRead s.mem a with
  | next v =>
    cases s.memMode with
    | closedWorld => exact .inl ⟨v, 0, rfl, rfl⟩
    | openWorld => exact .inl ⟨s.oracleWord, 4, rfl, by rw [← oracle]; rfl⟩
  | fault f => exact .inr (.inl ⟨f, rfl, rfl⟩)
  | refused q => exact .inr (.inr ⟨q, rfl, rfl⟩)

/-- A load with update refuses the invalid forms (30_encoding.md R69). -/
theorem loadZeroUpdate_of_invalid {rt ra : Reg} (h : ra = 0 ∨ ra = rt) (ea : Dword) (s : State) :
    loadZeroUpdate rt ra ea s = .refused .invalidForm := if_pos h

/-- An invalid form has no meaning in any state (30_encoding.md R69). -/
theorem exec_of_not_wellFormed {i : Instr} (h : i.wellFormed ≠ true) (s : State) :
    exec i s = .refused .invalidForm := by
  have invalid {rt ra : Reg} (h : ¬ (decide (ra ≠ 0) && decide (ra ≠ rt)) = true) : ra = 0 ∨ ra = rt := by
    simpa [or_iff_not_imp_left] using h
  cases i with
  | lwz | lwzx => exact absurd rfl h
  | lwzu | lwzux => exact loadZeroUpdate_of_invalid (invalid h) _ s

/-- In two such states with the same effective address an instruction stops alike, or completes in both with the same
word; so a relation `P` that such completions meet holds of the next states. -/
theorem ReadsAlike.exec_transfer {i : Instr} {s s' : State} (hs : ReadsAlike s s')
    (hea : effectiveAddr i s' = effectiveAddr i s) {P : State → State → Prop}
    (hP : ∀ w k, P (loadEffect i (effectiveAddr i s) w k s) (loadEffect i (effectiveAddr i s) w k s')) :
    (∀ t, exec i s = .next t → ∃ u, exec i s' = .next u ∧ P t u) ∧
    (∀ f, exec i s = .fault f → exec i s' = .fault f) ∧
    (∀ q, exec i s = .refused q → exec i s' = .refused q) := by
  by_cases hw : i.wellFormed = true
  · rw [exec_of_wellFormed hw s, exec_of_wellFormed hw s', hea]
    rcases hs.dataRead_cases (memAddr (effectiveAddr i s)) with ⟨w, k, h, h'⟩ | ⟨f, h, h'⟩ | ⟨q, h, h'⟩
    · simpa [h, h', loadEffect] using hP w k
    · simp [h, h']
    · simp [h, h']
  · simp [exec_of_not_wellFormed hw]

/-- The effective address depends on the registers read only (10_state.md R22). -/
theorem effectiveAddr_congr {i : Instr} {s s' : State} (h : ∀ r ∈ regsRead i, s'.gpr r = s.gpr r) :
    effectiveAddr i s' = effectiveAddr i s := by
  cases i with
  | lwz rt ra d => by_cases h0 : ra = 0 <;> simp_all [effectiveAddr, eaLwz, base0, regsRead]
  | lwzu rt ra d => simp_all [effectiveAddr, eaLwzu, regsRead]
  | lwzux rt ra rb => simp_all [effectiveAddr, eaLwzux, regsRead]
  | lwzx rt ra rb => by_cases h0 : ra = 0 <;> simp_all [effectiveAddr, eaLwzx, base0, regsRead]

/-! ### The registers, `pc` and memory (10_state.md) -/

/-- Settles O38: the registers by the frame of `exec`, once the registers written are listed; the rest by its fields. -/
theorem frameOfTheLoads : Obligations.FrameOfTheLoads := by
  refine fun s t rt ra rb d => ⟨?_, ?_, fun h => ?_⟩
  · rintro (h | h) r hr <;> exact exec_gpr_of_not_mem_regsWritten h (by simpa [regsWritten] using hr)
  · rintro (h | h) r hrt hra <;> exact exec_gpr_of_not_mem_regsWritten h (by simp [regsWritten, hrt, hra])
  · obtain ⟨i, hi⟩ : ∃ i, exec i s = .next t := by
      rcases h with h | h | h | h <;> exact ⟨_, h⟩
    exact ⟨fun a => by rw [exec_mem hi], exec_mem hi, exec_endPc hi, exec_memMode hi⟩

/-- Settles O40: another `pc` changes neither the read nor the address, and the effect commutes with it. -/
theorem everyLoadAdvancesPcByFour : Obligations.EveryLoadAdvancesPcByFour := by
  refine fun i s t h => ⟨exec_pc h, fun p => ?_⟩
  have alike : ReadsAlike s { s with pc := p } := ⟨rfl, rfl, rfl⟩
  have sameAddr : effectiveAddr i { s with pc := p } = effectiveAddr i s := effectiveAddr_congr fun _ _ => rfl
  obtain ⟨next, -, -⟩ := alike.exec_transfer sameAddr (P := fun t u => u = { t with pc := p + 4#32 })
    fun w k => loadEffect_withPc i _ w k s p
  obtain ⟨u, hu, rfl⟩ := next t h
  exact hu

/-- Settles O41: the registers read fix the effective address, and what is written depends on nothing else. -/
theorem loadsDependOnReadRegistersOnly : Obligations.LoadsDependOnReadRegistersOnly := by
  intro i s s' hread hmem hmode horacle
  have alike : ReadsAlike s s' := ⟨hmem, hmode, horacle⟩
  obtain ⟨next, stops⟩ := alike.exec_transfer (effectiveAddr_congr hread)
    (P := fun t u => ∀ r ∈ regsWritten i, u.gpr r = t.gpr r)
    fun w k r hr => loadEffect_gpr_of_mem hr _ w k s s'
  exact ⟨fun t h => ⟨next t h, fun r hr => exec_gpr_of_not_mem_regsWritten h hr⟩, stops⟩

/-- Settles O25: `r0` is not among the registers read, so writing it first changes neither the read nor the address. -/
theorem literalZeroBaseIgnoresR0 : Obligations.LiteralZeroBaseIgnoresR0 := by
  intro i s v hi
  have alike : ReadsAlike s (s.setGpr 0 v) := ⟨rfl, rfl, rfl⟩
  have notRead : 0 ∉ regsRead i := by
    rcases hi with ⟨rt, d, rfl⟩ | ⟨rt, rb, hrb, rfl⟩
    · simp [regsRead]
    · simpa [regsRead] using hrb.symm
  have sameAddr : effectiveAddr i (s.setGpr 0 v) = effectiveAddr i s :=
    effectiveAddr_congr fun r hr => gpr_setGpr_ne s v fun e => notRead (e ▸ hr)
  refine alike.exec_transfer sameAddr fun w k => ⟨?_, fun r hr => ?_, by simp, by simp⟩
  · exact loadEffect_gpr_of_mem (mem_regsWritten.mpr (.inl rfl)) _ w k s _
  · simp [loadEffect_gpr, gpr_setGpr_ne s v hr]

end Sys2Proof.Machine

namespace Sys2Proof

/-! ### A word and its four bytes (20_memory.md R43, R44) -/

/-- Four big-endian bytes have the value R43 (3) gives them. -/
theorem toNat_beWord (b0 b1 b2 b3 : Byte) : (beWord b0 b1 b2 b3).toNat =
    b0.toNat * 2 ^ 24 + b1.toNat * 2 ^ 16 + b2.toNat * 2 ^ 8 + b3.toNat := by
  have concat {n : Nat} (x : BitVec n) (b : Byte) : (x ++ b).toNat = x.toNat * 2 ^ 8 + b.toNat := by
    rw [BitVec.toNat_append, ← Nat.shiftLeft_add_eq_or_of_lt b.isLt, Nat.shiftLeft_eq]
  simp only [beWord, concat]
  omega

/-- The byte at `a + k` of a word stored at `a`, as a quotient and a remainder (20_memory.md R44). -/
theorem toNat_wordByte (w : Word) (k : Nat) : (wordByte w k).toNat = w.toNat / 2 ^ (24 - 8 * k) % 2 ^ 8 := by
  rw [wordByte, BitVec.extractLsb'_toNat, Nat.shiftRight_eq_div_pow]

/-- The four bytes of a word make it up again. -/
theorem beWord_wordByte (w : Word) : beWord (wordByte w 0) (wordByte w 1) (wordByte w 2) (wordByte w 3) = w := by
  apply BitVec.eq_of_toNat_eq
  simp only [toNat_beWord, toNat_wordByte]
  omega

/-- Byte `k` of four bytes' word is the `k`th of them. -/
theorem wordByte_beWord (b0 b1 b2 b3 : Byte) (k : Fin 4) :
    wordByte (beWord b0 b1 b2 b3) k = ![b0, b1, b2, b3] k := by
  apply BitVec.eq_of_toNat_eq
  rw [toNat_wordByte, toNat_beWord]
  fin_cases k <;> simp <;> omega

/-- Settles O13: the value of four bytes and the value of each byte of a word, from which both round trips follow. -/
theorem wordsAreBigEndianBytes : Obligations.WordsAreBigEndianBytes :=
  ⟨beWord_wordByte, fun b0 b1 b2 b3 => ⟨toNat_beWord b0 b1 b2 b3, wordByte_beWord b0 b1 b2 b3 0,
    wordByte_beWord b0 b1 b2 b3 1, wordByte_beWord b0 b1 b2 b3 2, wordByte_beWord b0 b1 b2 b3 3⟩⟩

end Sys2Proof

namespace Sys2Proof.Machine

/-! ### The outcomes of a data read (20_memory.md R43, R46) -/

/-- A data read past the top of the address space is refused (20_memory.md R47). -/
theorem dataRead_of_past_top {s : State} {a : Addr} (h : 0xFFFFFFFC < a.toNat) :
    dataRead s a = .refused .accessWrapsAddressSpace := by
  rw [dataRead, memRead_of_past_top h, andThen_refused]

/-- A data read that touches a byte outside `Mapped` is stuck (20_memory.md R48). -/
theorem dataRead_of_someUnmapped {s : State} {a : Addr} (h : a.toNat ≤ 0xFFFFFFFC) (hu : SomeUnmapped s.mem a) :
    dataRead s a = .fault (.unmapped a) := by
  rw [dataRead, memRead_of_someUnmapped h hu, andThen_fault]

section
variable {s : State} {a : Addr} {b0 b1 b2 b3 : Byte} (h : BytesAt s.mem a b0 b1 b2 b3)
include h

/-- In the closed world a data read answers the word memory holds (20_memory.md R43 (3)). -/
theorem dataRead_closedWorld (hm : s.memMode = .closedWorld) :
    dataRead s a = .next (beWord b0 b1 b2 b3, s) := by
  simp [dataRead, memRead_of_bytesAt h, hm]

/-- In the open world the oracle answers it (20_memory.md R46). -/
theorem dataRead_openWorld (hm : s.memMode = .openWorld) :
    dataRead s a = .next (s.oracleWord, s.skipOracle 4) := by
  simp [dataRead, memRead_of_bytesAt h, hm]

end

/-- Settles O14: the two stops and the answer of each world, by the lemma for each. -/
theorem dataReadIsMemRead : Obligations.DataReadIsMemRead := by
  refine fun s a => ⟨dataRead_of_past_top, dataRead_of_someUnmapped, fun b0 b1 b2 b3 h hm => ?_,
    fun b0 b1 b2 b3 h hm => dataRead_openWorld h hm⟩
  exact ⟨_, dataRead_closedWorld h hm, toNat_beWord b0 b1 b2 b3⟩

/-! ### The bytes a word was read from (20_memory.md R44) -/

/-- The four bytes of `BytesAt`, by their place. -/
theorem BytesAt.read_eq {m : Memory} {a : Addr} {b0 b1 b2 b3 : Byte} (h : BytesAt m a b0 b1 b2 b3) (k : Fin 4) :
    Memory.read m (a + BitVec.ofNat 32 k) = some (![b0, b1, b2, b3] k) := by
  obtain ⟨-, h0, h1, h2, h3⟩ := h
  fin_cases k
  · simpa using h0
  · exact h1
  · exact h2
  · exact h3

/-- Where a word was read, memory holds its bytes, the most significant at the lowest address. -/
theorem read_of_memRead {m : Memory} {a : Addr} {w : Word} (h : memRead m a = .next w) (k : Fin 4) :
    Memory.read m (a + BitVec.ofNat 32 k) = some (wordByte w k) := by
  obtain ⟨b0, b1, b2, b3, hb, rfl⟩ := memRead_eq_next h
  rw [hb.read_eq, wordByte_beWord]

/-- Two words read from one memory share the byte at an address that both cover. -/
theorem wordByte_eq_of_overlap {m : Memory} {a e : Addr} {w v : Word} (hw : memRead m a = .next w)
    (hv : memRead m e = .next v) (j k : Fin 4) (h : a + BitVec.ofNat 32 j = e + BitVec.ofNat 32 k) :
    wordByte w j = wordByte v k :=
  Option.some.inj (by rw [← read_of_memRead hw, ← read_of_memRead hv, h])

/-- Settles O16: the word at `a + 1` takes three bytes from the word at `a` and its last from the word at `a + 4`. -/
theorem overlappingWordsShareBytes : Obligations.OverlappingWordsShareBytes := by
  intro m a w v u hw hv hu
  refine ⟨fun k hk => read_of_memRead hw ⟨k, hk⟩, ?_⟩
  have v0 : wordByte v 0 = wordByte w 1 := wordByte_eq_of_overlap hv hw 0 1 (by simp)
  have v1 : wordByte v 1 = wordByte w 2 := wordByte_eq_of_overlap hv hw 1 2 (by simp [BitVec.add_assoc])
  have v2 : wordByte v 2 = wordByte w 3 := wordByte_eq_of_overlap hv hw 2 3 (by simp [BitVec.add_assoc])
  have v3 : wordByte v 3 = wordByte u 0 := wordByte_eq_of_overlap hv hu 3 0 (by simp [BitVec.add_assoc])
  rw [← beWord_wordByte v, v0, v1, v2, v3]
  simp only [toNat_beWord, toNat_wordByte]
  omega

/-! ### From the read to the completed instruction (40_load_word_and_zero.md R90) -/

/-- A valid instruction whose read is answered completes with its effect. -/
theorem exec_of_dataRead {i : Instr} {s : State} {w : Word} {k : Nat} (hi : i.wellFormed = true)
    (hr : dataRead s (memAddr (effectiveAddr i s)) = .next (w, s.skipOracle k)) :
    exec i s = .next (loadEffect i (effectiveAddr i s) w k s) := by
  rw [exec_of_wellFormed hi, hr, andThen_next, loadEffect]

/-- A valid instruction leaves the word in its destination: the write-back goes to another register. -/
theorem loadEffect_gpr_destination {i : Instr} (hi : i.wellFormed = true) (ea : Dword) (w : Word) (k : Nat)
    (s : State) : (loadEffect i ea w k s).gpr (destination i) = zeroExtend w := by
  simp [loadEffect_gpr, writeBackReg_ne_destination hi]

/-- Of the state, only the registers before a load decide the registers after it. -/
theorem loadEffect_gprs_congr {s s' : State} (h : ∀ r, s'.gpr r = s.gpr r) (i : Instr) (ea : Dword) (w : Word)
    (k k' : Nat) : (loadEffect i ea w k' s').gprs = (loadEffect i ea w k s).gprs :=
  gprs_ext fun r => by simp [loadEffect_gpr, h]

/-- After a completed instruction its destination holds the word its read answered (40_load_word_and_zero.md R96). -/
theorem exec_gpr_destination {i : Instr} {s t : State} (h : exec i s = .next t) :
    ∃ w u, dataRead s (memAddr (effectiveAddr i s)) = .next (w, u) ∧ t.gpr (destination i) = zeroExtend w := by
  obtain ⟨hi, w, u, hr, rfl⟩ := exec_eq_next h
  exact ⟨w, u, hr, loadEffect_gpr_destination hi _ w 0 u⟩

/-- Settles O17: the read is answered with the bytes' word, with no test of the address modulo 4. -/
theorem loadsCompleteAtEveryAlignment : Obligations.LoadsCompleteAtEveryAlignment := by
  intro i s b0 b1 b2 b3 hi hm hb
  refine ⟨_, exec_of_dataRead (k := 0) hi (dataRead_closedWorld hb hm), ?_⟩
  rw [loadEffect_gpr_destination hi, zeroExtend, BitVec.toNat_setWidth_of_le (by decide), toNat_beWord]

/-- Settles O44: both worlds answer the read with the same word, and the effects differ in mode and oracle position only. -/
theorem openWorldCoversClosedWorld : Obligations.OpenWorldCoversClosedWorld := by
  intro i s t hm hb ht
  obtain ⟨hi, -⟩ := exec_eq_next ht
  have sameAddr : effectiveAddr i { s with memMode := .closedWorld } = effectiveAddr i s :=
    effectiveAddr_congr fun _ _ => rfl
  have closed : exec i { s with memMode := .closedWorld } =
      .next (loadEffect i (effectiveAddr i s) s.oracleWord 0 { s with memMode := .closedWorld }) := by
    rw [← sameAddr] at hb ⊢
    exact exec_of_dataRead hi (dataRead_closedWorld hb rfl)
  cases closed.symm.trans ht
  refine ⟨_, exec_of_dataRead hi (dataRead_openWorld hb hm), ?_, by simp, by simp⟩
  refine loadEffect_gprs_congr (fun r => ?_) i _ _ _ _
  rfl

/-! ### Effective addresses (20_memory.md R41, R42, R52) -/

theorem toNat_memAddr (ea : Dword) : (memAddr ea).toNat = ea.toNat % 2 ^ 32 := BitVec.toNat_setWidth 32 ea

/-- The high half of an effective address is not part of the memory address (20_memory.md R41). -/
theorem memAddr_congr {ea ea' : Dword} (h : ea.toNat % 2 ^ 32 = ea'.toNat % 2 ^ 32) : memAddr ea = memAddr ea' :=
  BitVec.eq_of_toNat_eq (by rw [toNat_memAddr, toNat_memAddr, h])

/-- A load without update uses its effective address for the access only. -/
theorem loadZero_congr {ea ea' : Dword} (h : memAddr ea = memAddr ea') (rt : Reg) (s : State) :
    loadZero rt ea s = loadZero rt ea' s := by
  rw [loadZero, loadZero, h]

/-- Field value 0 of `RA` is the base zero (30_encoding.md R65). -/
theorem eaLwz_zero (s : State) (d : Disp) : eaLwz s 0 d = dispOffset d := by
  rw [eaLwz, base0, if_pos rfl, BitVec.zero_add]

/-- Any other field value is a register (30_encoding.md R65). -/
theorem eaLwz_of_ne_zero {ra : Reg} (h : ra ≠ 0) (s : State) (d : Disp) : eaLwz s ra d = s.gpr ra + dispOffset d := by
  rw [eaLwz, base0, if_neg h]

/-- Settles O27: the access sees the effective address through `memAddr` alone. -/
theorem addressIsLowHalfOfEA : Obligations.AddressIsLowHalfOfEA := by
  refine ⟨toNat_memAddr, fun s ea ea' h => ?_, fun s => ?_⟩
  · have low := memAddr_congr h
    exact ⟨by rw [low], fun rt => loadZero_congr low rt s⟩
  · rw [eaLwz_zero]
    decide

/-- A displacement alone as an address: 64 KiB around zero, the negative half at the top (20_memory.md R42). -/
theorem toNat_memAddr_dispOffset (d : Disp) : (memAddr (dispOffset d)).toNat =
    if d.toNat ≤ 0x7FFF then d.toNat else d.toNat + (2 ^ 32 - 2 ^ 16) := by
  have := d.isLt
  simp only [toNat_memAddr, dispOffset, BitVec.toNat_signExtend, BitVec.msb_eq_decide, BitVec.toNat_setWidth,
    decide_eq_true_eq]
  split <;> split <;> omega

/-- Settles O28: the reached addresses are those of the displacements, and each one's low 16 bits reach it again. -/
theorem zeroBaseReach : Obligations.ZeroBaseReach := by
  intro s a
  simp only [eaLwz_zero]
  constructor
  · rintro ⟨d, rfl⟩
    rw [toNat_memAddr_dispOffset]
    split <;> omega
  · intro h
    refine ⟨a.setWidth 16, BitVec.eq_of_toNat_eq ?_⟩
    rw [toNat_memAddr_dispOffset, BitVec.toNat_setWidth]
    have := a.isLt
    split <;> omega

/-- Settles O43: the destination holds the word read, and as a base other than 0 it is read as a register. -/
theorem loadedPointerIsUsableAtOnce : Obligations.LoadedPointerIsUsableAtOnce := by
  intro i s t d h h0
  obtain ⟨w, u, hr, hg⟩ := exec_gpr_destination h
  exact ⟨w, u, hr, by rw [eaLwz_of_ne_zero h0, hg, zeroExtend, dispOffset]⟩

end Sys2Proof.Machine

namespace Sys2Proof

/-! ### The fields of a word, and a word from its fields (30_encoding.md R61 to R63) -/

section
variable (insn : Word)

theorem fieldOPCD_eq : fieldOPCD insn = insn.toNat / 2 ^ 26 := by
  have := insn.isLt
  simp only [fieldOPCD, bitField]
  omega

theorem val_fieldRT : (fieldRT insn).val = insn.toNat / 2 ^ 21 % 32 :=
  Nat.mod_mod (insn.toNat / 2 ^ 21) 32

theorem val_fieldRA : (fieldRA insn).val = insn.toNat / 2 ^ 16 % 32 :=
  Nat.mod_mod (insn.toNat / 2 ^ 16) 32

theorem val_fieldRB : (fieldRB insn).val = insn.toNat / 2 ^ 11 % 32 :=
  Nat.mod_mod (insn.toNat / 2 ^ 11) 32

theorem toNat_fieldD : (fieldD insn).toNat = insn.toNat % 2 ^ 16 := by
  simp only [fieldD, bitField, BitVec.toNat_ofNat]
  omega

theorem fieldXO_eq : fieldXO insn = insn.toNat / 2 % 1024 := rfl

theorem fieldRc_eq : fieldRc insn = insn.toNat % 2 := by
  simp only [fieldRc, bitField]
  omega

end

theorem fieldRc_eq_zero_of_ne_one {insn : Word} (h : fieldRc insn ≠ 1) : fieldRc insn = 0 := by
  rw [fieldRc_eq] at h ⊢
  omega

/-- A D form word has the value R63 gives it: its fields do not overlap. -/
theorem toNat_encodeD {opcd : Nat} (ho : opcd < 64) (rt ra : Reg) (d : Disp) :
    (encodeD opcd rt ra d).toNat = opcd * 2 ^ 26 + rt.val * 2 ^ 21 + ra.val * 2 ^ 16 + d.toNat := by
  have := d.isLt
  simp only [encodeD, BitVec.toNat_ofNat]
  omega

/-- An X form word has the value R63 gives it. -/
theorem toNat_encodeX {opcd xo rc : Nat} (ho : opcd < 64) (hx : xo < 1024) (hc : rc < 2) (rt ra rb : Reg) :
    (encodeX opcd rt ra rb xo rc).toNat =
      opcd * 2 ^ 26 + rt.val * 2 ^ 21 + ra.val * 2 ^ 16 + rb.val * 2 ^ 11 + xo * 2 + rc := by
  simp only [encodeX, BitVec.toNat_ofNat]
  omega

/-- The D form fields of a word make it up again. -/
theorem encodeD_fields_eq_self (insn : Word) :
    encodeD (fieldOPCD insn) (fieldRT insn) (fieldRA insn) (fieldD insn) = insn := by
  apply BitVec.eq_of_toNat_eq
  simp only [encodeD, BitVec.toNat_ofNat, fieldOPCD_eq, val_fieldRT, val_fieldRA, toNat_fieldD]
  omega

/-- The X form fields of a word make it up again. -/
theorem encodeX_fields_eq_self (insn : Word) :
    encodeX (fieldOPCD insn) (fieldRT insn) (fieldRA insn) (fieldRB insn) (fieldXO insn) (fieldRc insn) = insn := by
  apply BitVec.eq_of_toNat_eq
  simp only [encodeX, BitVec.toNat_ofNat, fieldOPCD_eq, val_fieldRT, val_fieldRA, val_fieldRB, fieldXO_eq, fieldRc_eq]
  omega

/-- Settles O3: the value of each field, the value of each form, and that the fields of either form tile the word. -/
theorem fieldsTileTheWord : Obligations.FieldsTileTheWord :=
  ⟨fun insn => ⟨fieldOPCD_eq insn, val_fieldRT insn, val_fieldRA insn, toNat_fieldD insn, val_fieldRB insn,
      fieldXO_eq insn, fieldRc_eq insn, encodeD_fields_eq_self insn, encodeX_fields_eq_self insn⟩,
    fun _ rt ra d ho => toNat_encodeD ho rt ra d,
    fun _ rt ra rb _ _ ho hx hc => toNat_encodeX ho hx hc rt ra rb⟩

/-! ### Valid and invalid forms (30_encoding.md R69) -/

@[simp] theorem wellFormed_lwzu {rt ra : Reg} {d : Disp} :
    (Instr.lwzu rt ra d).wellFormed = true ↔ ra ≠ 0 ∧ ra ≠ rt := by
  simp [Instr.wellFormed]

@[simp] theorem wellFormed_lwzux {rt ra rb : Reg} :
    (Instr.lwzux rt ra rb).wellFormed = true ↔ ra ≠ 0 ∧ ra ≠ rt := by
  simp [Instr.wellFormed]

theorem checkForm_of_wellFormed {i : Instr} (h : i.wellFormed = true) : checkForm i = .ok i := if_pos h

theorem checkForm_of_not_wellFormed {i : Instr} (h : ¬ i.wellFormed = true) : checkForm i = .error .invalidForm :=
  if_neg h

theorem checkForm_eq_ok {i j : Instr} : checkForm i = .ok j ↔ j = i ∧ i.wellFormed = true := by
  by_cases h : i.wellFormed = true
  · simp [checkForm_of_wellFormed h, h, eq_comm]
  · simp [checkForm_of_not_wellFormed h, h]

/-! ### The decoder, one equation per test (30_encoding.md R67) -/

section
variable {insn : Word}

theorem decodeWord_of_opcd_32 (h : fieldOPCD insn = 32) :
    decodeWord insn = checkForm (.lwz (fieldRT insn) (fieldRA insn) (fieldD insn)) := by
  simp [decodeWord, h]

theorem decodeWord_of_opcd_33 (h : fieldOPCD insn = 33) :
    decodeWord insn = checkForm (.lwzu (fieldRT insn) (fieldRA insn) (fieldD insn)) := by
  simp [decodeWord, h]

/-- `Rc` is tested before the form is checked (30_encoding.md R68). -/
theorem decodeWord_of_rc_1 (h : fieldOPCD insn = 31) (hx : fieldXO insn = 23 ∨ fieldXO insn = 55)
    (hc : fieldRc insn = 1) : decodeWord insn = .error .reservedRc := by
  rcases hx with hx | hx <;> simp [decodeWord, h, hx, hc]

theorem decodeWord_of_xo_23 (h : fieldOPCD insn = 31) (hx : fieldXO insn = 23) (hc : fieldRc insn = 0) :
    decodeWord insn = checkForm (.lwzx (fieldRT insn) (fieldRA insn) (fieldRB insn)) := by
  simp [decodeWord, h, hx, hc]

theorem decodeWord_of_xo_55 (h : fieldOPCD insn = 31) (hx : fieldXO insn = 55) (hc : fieldRc insn = 0) :
    decodeWord insn = checkForm (.lwzux (fieldRT insn) (fieldRA insn) (fieldRB insn)) := by
  simp [decodeWord, h, hx, hc]

theorem decodeWord_of_no_row (h32 : fieldOPCD insn ≠ 32) (h33 : fieldOPCD insn ≠ 33)
    (hx : ¬ (fieldOPCD insn = 31 ∧ (fieldXO insn = 23 ∨ fieldXO insn = 55))) :
    decodeWord insn = .error .notInSpec := by
  obtain ⟨h23, h55⟩ := not_or.mp fun h => hx (and_or_left.mpr h)
  rw [decodeWord, if_neg h32, if_neg h33, if_neg h23, if_neg h55]

end

/-- Settles O9: the equation of each test, with the fields written as the arithmetic of R63. -/
theorem decodeTestsInOrder : Obligations.DecodeTestsInOrder := by
  intro insn
  simp only [← fieldOPCD_eq, ← fieldXO_eq, ← fieldRc_eq]
  have invalid {ra rt : Reg} (h : ra = 0 ∨ ra = rt) : ¬ (ra ≠ 0 ∧ ra ≠ rt) := fun ⟨h0, ht⟩ => h.elim h0 ht
  refine ⟨fun h => ?_, fun h hra => ?_, fun h h0 ht => ?_, fun h hx hc => decodeWord_of_rc_1 h (.inl hx) hc,
    fun h hx hc => ?_, fun h hx hc => decodeWord_of_rc_1 h (.inr hx) hc, fun h hx hc hra => ?_,
    fun h hx hc h0 ht => ?_, decodeWord_of_no_row⟩
  · rw [decodeWord_of_opcd_32 h, checkForm_of_wellFormed rfl]
  · rw [decodeWord_of_opcd_33 h, checkForm_of_not_wellFormed (wellFormed_lwzu.not.mpr (invalid hra))]
  · rw [decodeWord_of_opcd_33 h, checkForm_of_wellFormed (wellFormed_lwzu.mpr ⟨h0, ht⟩)]
  · rw [decodeWord_of_xo_23 h hx hc, checkForm_of_wellFormed rfl]
  · rw [decodeWord_of_xo_55 h hx hc, checkForm_of_not_wellFormed (wellFormed_lwzux.not.mpr (invalid hra))]
  · rw [decodeWord_of_xo_55 h hx hc, checkForm_of_wellFormed (wellFormed_lwzux.mpr ⟨h0, ht⟩)]

/-! ### Decoding and encoding are inverse to each other (30_encoding.md R63, R66, R67) -/

/-- A word with the `OPCD` of a D form row is that row's word of its operands. -/
theorem encodeD_of_opcd {insn : Word} {opcd : Nat} (ho : fieldOPCD insn = opcd) :
    encodeD opcd (fieldRT insn) (fieldRA insn) (fieldD insn) = insn := by
  rw [← ho, encodeD_fields_eq_self]

/-- A word with the `OPCD`, `XO` and `Rc` of an X form row is that row's word of its operands. -/
theorem encodeX_of_opcd_xo_rc {insn : Word} {opcd xo rc : Nat} (ho : fieldOPCD insn = opcd)
    (hx : fieldXO insn = xo) (hc : fieldRc insn = rc) :
    encodeX opcd (fieldRT insn) (fieldRA insn) (fieldRB insn) xo rc = insn := by
  rw [← ho, ← hx, ← hc, encodeX_fields_eq_self]

/-- What decodes is a valid form, and its encoding is the word: the tests passed fix `OPCD`, `XO` and `Rc`, and the
operands are the word's other fields. -/
theorem wellFormed_and_encode_of_decodeWord {insn : Word} {i : Instr} (h : decodeWord insn = .ok i) :
    i.wellFormed = true ∧ encode i = insn := by
  by_cases h32 : fieldOPCD insn = 32
  · rw [decodeWord_of_opcd_32 h32, checkForm_eq_ok] at h
    obtain ⟨rfl, hi⟩ := h
    exact ⟨hi, encodeD_of_opcd h32⟩
  by_cases h33 : fieldOPCD insn = 33
  · rw [decodeWord_of_opcd_33 h33, checkForm_eq_ok] at h
    obtain ⟨rfl, hi⟩ := h
    exact ⟨hi, encodeD_of_opcd h33⟩
  by_cases hox : fieldOPCD insn = 31 ∧ (fieldXO insn = 23 ∨ fieldXO insn = 55)
  · obtain ⟨ho, hx⟩ := hox
    by_cases hc : fieldRc insn = 1
    · rw [decodeWord_of_rc_1 ho hx hc] at h
      cases h
    have hc0 := fieldRc_eq_zero_of_ne_one hc
    rcases hx with hx | hx
    · rw [decodeWord_of_xo_23 ho hx hc0, checkForm_eq_ok] at h
      obtain ⟨rfl, hi⟩ := h
      exact ⟨hi, encodeX_of_opcd_xo_rc ho hx hc0⟩
    · rw [decodeWord_of_xo_55 ho hx hc0, checkForm_eq_ok] at h
      obtain ⟨rfl, hi⟩ := h
      exact ⟨hi, encodeX_of_opcd_xo_rc ho hx hc0⟩
  · rw [decodeWord_of_no_row h32 h33 hox] at h
    cases h

/-- Decoding an encoded instruction leaves only the check of its form. -/
theorem decodeWord_encode (i : Instr) : decodeWord (encode i) = checkForm i := by
  cases i with
  | lwz rt ra d =>
    obtain ⟨ho, ht, ha, hd⟩ := Laws.EncodedFields.lwz rt ra d
    rw [decodeWord_of_opcd_32 ho, ht, ha, hd]
  | lwzu rt ra d =>
    obtain ⟨ho, ht, ha, hd⟩ := Laws.EncodedFields.lwzu rt ra d
    rw [decodeWord_of_opcd_33 ho, ht, ha, hd]
  | lwzux rt ra rb =>
    obtain ⟨ho, ht, ha, hb, hx, hc⟩ := Laws.EncodedFields.lwzux rt ra rb
    rw [decodeWord_of_xo_55 ho hx hc, ht, ha, hb]
  | lwzx rt ra rb =>
    obtain ⟨ho, ht, ha, hb, hx, hc⟩ := Laws.EncodedFields.lwzx rt ra rb
    rw [decodeWord_of_xo_23 ho hx hc, ht, ha, hb]

/-- Settles O4: the decoder finds the instruction's row and operands in its word, and the form is valid. -/
theorem decodeOfEncodeIsTheInstruction : Obligations.DecodeOfEncodeIsTheInstruction := by
  intro i hi
  rw [decodeWord_encode, checkForm_of_wellFormed hi]

/-- Settles O5: the second half of what decoding says of the word. -/
theorem encodeOfDecodedIsTheWord : Obligations.EncodeOfDecodedIsTheWord := by
  intro insn i h
  obtain ⟨-, hw⟩ := wellFormed_and_encode_of_decodeWord h
  exact hw

/-! ### The rows of the opcode map (30_encoding.md R66) -/

/-- The mask of the D form rows keeps `OPCD`. -/
theorem toNat_and_maskD (insn : Word) : (insn &&& 0xFC000000#32).toNat = fieldOPCD insn * 2 ^ 26 := by
  have high : 0xFC000000#32 = BitVec.allOnes 32 <<< 26 := by decide
  have := insn.isLt
  rw [high, ← BitVec.shiftLeft_ushiftRight, BitVec.toNat_shiftLeft, BitVec.toNat_ushiftRight, Nat.shiftLeft_eq,
    Nat.shiftRight_eq_div_pow, fieldOPCD_eq]
  omega

/-- The mask of the X form rows keeps `OPCD`, `XO` and `Rc`. -/
theorem toNat_and_maskX (insn : Word) :
    (insn &&& 0xFC0007FF#32).toNat = fieldOPCD insn * 2 ^ 26 + fieldXO insn * 2 + fieldRc insn := by
  have masks : 0xFC0007FF#32 = 0xFC000000#32 ||| 0x7FF#32 := by decide
  have low : (insn &&& 0x7FF#32).toNat = insn.toNat % 2 ^ 11 := by
    rw [BitVec.toNat_and, ← Nat.and_two_pow_sub_one_eq_mod]
    rfl
  have fits : insn.toNat % 2 ^ 11 < 2 ^ 26 := by omega
  rw [masks, BitVec.and_or_distrib_left, BitVec.toNat_or, toNat_and_maskD, low, ← Nat.shiftLeft_eq,
    ← Nat.shiftLeft_add_eq_or_of_lt fits, Nat.shiftLeft_eq, fieldXO_eq, fieldRc_eq]
  omega

/-- A word has the masked bits of a D form row exactly when it has its `OPCD`. -/
theorem and_maskD_eq_iff {insn : Word} {opcd : Nat} (ho : opcd < 64) :
    insn &&& 0xFC000000#32 = BitVec.ofNat 32 (opcd * 2 ^ 26) ↔ fieldOPCD insn = opcd := by
  rw [← BitVec.toNat_inj, toNat_and_maskD, BitVec.toNat_ofNat]
  omega

/-- A word has the masked bits of an X form row exactly when it has its `OPCD`, `XO` and `Rc`. -/
theorem and_maskX_eq_iff {insn : Word} {opcd xo rc : Nat} (ho : opcd < 64) (hx : xo < 1024) (hc : rc < 2) :
    insn &&& 0xFC0007FF#32 = BitVec.ofNat 32 (opcd * 2 ^ 26 + xo * 2 + rc) ↔
      fieldOPCD insn = opcd ∧ fieldXO insn = xo ∧ fieldRc insn = rc := by
  have hx' := fieldXO_eq insn
  have hc' := fieldRc_eq insn
  rw [← BitVec.toNat_inj, toNat_and_maskX, BitVec.toNat_ofNat]
  omega

/-- The rows of the opcode map as tests of `OPCD`, `XO` and `Rc`. -/
theorem rowsMatched_eq (insn : Word) : rowsMatched insn =
    [decide (fieldOPCD insn = 32), decide (fieldOPCD insn = 33),
     decide (fieldOPCD insn = 31 ∧ fieldXO insn = 55 ∧ fieldRc insn = 0),
     decide (fieldOPCD insn = 31 ∧ fieldXO insn = 23 ∧ fieldRc insn = 0)] := by
  have lwz : insn &&& 0xFC000000#32 = 0x80000000#32 ↔ _ := and_maskD_eq_iff (opcd := 32) (by decide)
  have lwzu : insn &&& 0xFC000000#32 = 0x84000000#32 ↔ _ := and_maskD_eq_iff (opcd := 33) (by decide)
  have lwzux : insn &&& 0xFC0007FF#32 = 0x7C00006E#32 ↔ _ :=
    and_maskX_eq_iff (opcd := 31) (xo := 55) (rc := 0) (by decide) (by decide) (by decide)
  have lwzx : insn &&& 0xFC0007FF#32 = 0x7C00002E#32 ↔ _ :=
    and_maskX_eq_iff (opcd := 31) (xo := 23) (rc := 0) (by decide) (by decide) (by decide)
  simp only [rowsMatched, opcodeMap, List.map_cons, List.map_nil, lwz, lwzu, lwzux, lwzx]

theorem rowsMatched_encode_lwz (rt ra : Reg) (d : Disp) :
    rowsMatched (encode (.lwz rt ra d)) = [true, false, false, false] := by
  obtain ⟨ho, -⟩ := Laws.EncodedFields.lwz rt ra d
  simp [rowsMatched_eq, ho]

theorem rowsMatched_encode_lwzu (rt ra : Reg) (d : Disp) :
    rowsMatched (encode (.lwzu rt ra d)) = [false, true, false, false] := by
  obtain ⟨ho, -⟩ := Laws.EncodedFields.lwzu rt ra d
  simp [rowsMatched_eq, ho]

theorem rowsMatched_encode_lwzux (rt ra rb : Reg) :
    rowsMatched (encode (.lwzux rt ra rb)) = [false, false, true, false] := by
  obtain ⟨ho, -, -, -, hx, hc⟩ := Laws.EncodedFields.lwzux rt ra rb
  simp [rowsMatched_eq, ho, hx, hc]

theorem rowsMatched_encode_lwzx (rt ra rb : Reg) :
    rowsMatched (encode (.lwzx rt ra rb)) = [false, false, false, true] := by
  obtain ⟨ho, -, -, -, hx, hc⟩ := Laws.EncodedFields.lwzx rt ra rb
  simp [rowsMatched_eq, ho, hx, hc]

/-- Every encoded instruction is of one row. -/
theorem count_rowsMatched_encode (i : Instr) : (rowsMatched (encode i)).count true = 1 := by
  cases i with
  | lwz rt ra d => rw [rowsMatched_encode_lwz]; rfl
  | lwzu rt ra d => rw [rowsMatched_encode_lwzu]; rfl
  | lwzux rt ra rb => rw [rowsMatched_encode_lwzux]; rfl
  | lwzx rt ra rb => rw [rowsMatched_encode_lwzx]; rfl

/-- No word is of two rows: each row's test excludes the others'. -/
theorem count_rowsMatched_le_one (insn : Word) : (rowsMatched insn).count true ≤ 1 := by
  rw [rowsMatched_eq]
  by_cases lwz : fieldOPCD insn = 32
  · simp [lwz]
  by_cases lwzu : fieldOPCD insn = 33
  · simp [lwzu]
  by_cases lwzux : fieldOPCD insn = 31 ∧ fieldXO insn = 55 ∧ fieldRc insn = 0
  · simp [lwzux]
  by_cases lwzx : fieldOPCD insn = 31 ∧ fieldXO insn = 23 ∧ fieldRc insn = 0
  · simp [lwzx]
  · simp only [lwz, lwzu, lwzux, lwzx, decide_false]
    decide

/-- Settles O8: the rows of each encoded instruction; what decodes is an encoded instruction; the rows exclude each
other. -/
theorem opcodeRowsDoNotOverlap : Obligations.OpcodeRowsDoNotOverlap := by
  refine ⟨fun rt ra rb d => ⟨rowsMatched_encode_lwz rt ra d, rowsMatched_encode_lwzu rt ra d,
    rowsMatched_encode_lwzux rt ra rb, rowsMatched_encode_lwzx rt ra rb⟩, fun insn i h => ?_,
    count_rowsMatched_le_one⟩
  obtain ⟨-, rfl⟩ := wellFormed_and_encode_of_decodeWord h
  exact count_rowsMatched_encode i

end Sys2Proof

namespace Sys2Proof.Machine

/-! ### Operand forms (30_encoding.md R64, R65) -/

/-- The displacement as an unsigned 64-bit number. -/
theorem toNat_dispOffset (d : Disp) : (dispOffset d).toNat =
    if d.toNat ≤ 0x7FFF then d.toNat else d.toNat + 2 ^ 64 - 2 ^ 16 := by
  have := d.isLt
  simp only [dispOffset, BitVec.toNat_signExtend, BitVec.msb_eq_decide, BitVec.toNat_setWidth, decide_eq_true_eq]
  split <;> split <;> omega

/-- The displacement as a signed number: sign extension keeps it. -/
theorem toInt_dispOffset (d : Disp) : (dispOffset d).toInt =
    if d.toNat ≤ 0x7FFF then (d.toNat : Int) else (d.toNat : Int) - 65536 := by
  rw [dispOffset, BitVec.toInt_signExtend_of_le (by decide), BitVec.toInt_eq_toNat_cond]
  split <;> split <;> omega

/-- Settles O23: the offset read both ways; the two addresses add it by definition. -/
theorem displacementIsSignExtended : Obligations.DisplacementIsSignExtended :=
  fun _ _ d => ⟨toNat_dispOffset d, toInt_dispOffset d, rfl, rfl⟩

theorem base0_zero (s : State) : base0 s 0 = 0#64 := if_pos rfl

theorem base0_of_ne_zero {ra : Reg} (h : ra ≠ 0) (s : State) : base0 s ra = s.gpr ra := if_neg h

/-- Settles O24: the two cases of the `RA0` base; the other operands are registers by definition; `RT` as for every
destination. -/
theorem operandFormsOfRA : Obligations.OperandFormsOfRA := by
  refine fun s ra rb d => ⟨eaLwz_zero s d, ?_, fun h => ⟨eaLwz_of_ne_zero h s d, ?_, rfl, rfl⟩,
    fun rt => ⟨rfl, rfl⟩, rfl, rfl, fun i t h h0 => h0 ▸ exec_gpr_destination h⟩
  · rw [eaLwzx, base0_zero, BitVec.zero_add]
  · rw [eaLwzx, base0_of_ne_zero h]

end Sys2Proof.Machine

namespace Sys2Proof.Machine

/-! ### Effective addresses as sums (40_load_word_and_zero.md R95) -/

/-- The `RA0` base as a number (30_encoding.md R65). -/
theorem toNat_base0 (s : State) (ra : Reg) : (base0 s ra).toNat = if ra = 0 then 0 else (s.gpr ra).toNat := by
  rw [base0, apply_ite BitVec.toNat, BitVec.toNat_zero]

/-- Settles O26: the sum of two 64-bit values is taken modulo `2 ^ 64`; each operand's value is by its own lemma. -/
theorem effectiveAddressIsModular : Obligations.EffectiveAddressIsModular := by
  refine fun s ra rb d => ⟨?_, ?_, BitVec.toNat_add _ _, ?_⟩
  · rw [eaLwz, BitVec.toNat_add, toNat_base0, toNat_dispOffset]
  · rw [eaLwzu, BitVec.toNat_add, toNat_dispOffset]
  · rw [eaLwzx, BitVec.toNat_add, toNat_base0]

/-- Settles O36: the two effective addresses are one sum, and each pair of meanings differs in nothing else. -/
theorem indexActsAsDisplacement : Obligations.IndexActsAsDisplacement := by
  intro s rt ra rb d h
  have plain : eaLwzx s ra rb = eaLwz s ra d := by rw [eaLwzx, eaLwz, h, dispOffset]
  have update : eaLwzux s ra rb = eaLwzu s ra d := by rw [eaLwzux, eaLwzu, h, dispOffset]
  exact ⟨congrArg (loadZero rt · s) plain, congrArg (loadZeroUpdate rt ra · s) update⟩

/-- The low half of a sum is the sum of the low halves (20_memory.md R41). -/
theorem memAddr_add (x y : Dword) : memAddr (x + y) = memAddr x + memAddr y :=
  BitVec.setWidth_add x y (by decide)

/-- The high halves of the registers play no part in the memory address (20_memory.md R41). -/
theorem memAddr_effectiveAddr_congr {s s' : State} (h : ∀ r, memAddr (s'.gpr r) = memAddr (s.gpr r)) (i : Instr) :
    memAddr (effectiveAddr i s') = memAddr (effectiveAddr i s) := by
  have base (ra : Reg) : memAddr (base0 s' ra) = memAddr (base0 s ra) := by
    by_cases h0 : ra = 0
    · rw [h0, base0_zero, base0_zero]
    · rw [base0_of_ne_zero h0, base0_of_ne_zero h0, h]
  cases i with
  | lwz rt ra d => simp only [effectiveAddr, eaLwz, memAddr_add, base]
  | lwzu rt ra d => simp only [effectiveAddr, eaLwzu, memAddr_add, h]
  | lwzux rt ra rb => simp only [effectiveAddr, eaLwzux, memAddr_add, h]
  | lwzx rt ra rb => simp only [effectiveAddr, eaLwzx, memAddr_add, base, h]

/-- Where data reads answer alike and only the memory address is the same, an instruction stops alike or completes with
the same word, each state with its own effective address: `ReadsAlike.exec_transfer` for bases that differ in the high
half (20_memory.md R41). -/
theorem ReadsAlike.exec_transfer_of_memAddr {i : Instr} {s s' : State} (hs : ReadsAlike s s')
    (hea : memAddr (effectiveAddr i s') = memAddr (effectiveAddr i s)) {P : State → State → Prop}
    (hP : ∀ w k, P (loadEffect i (effectiveAddr i s) w k s) (loadEffect i (effectiveAddr i s') w k s')) :
    (∀ t, exec i s = .next t → ∃ u, exec i s' = .next u ∧ P t u) ∧
    (∀ f, exec i s = .fault f → exec i s' = .fault f) ∧
    (∀ q, exec i s = .refused q → exec i s' = .refused q) := by
  by_cases hw : i.wellFormed = true
  · rw [exec_of_wellFormed hw s, exec_of_wellFormed hw s', hea]
    rcases hs.dataRead_cases (memAddr (effectiveAddr i s)) with ⟨w, k, h, h'⟩ | ⟨f, h, h'⟩ | ⟨q, h, h'⟩
    · simpa [h, h', loadEffect] using hP w k
    · simp [h, h']
    · simp [h, h']
  · simp [exec_of_not_wellFormed hw]

/-- Settles O29: the two states differ in the base's high half, so the memory addresses are equal, and a form without
write-back puts nothing else of the address into its effect. -/
theorem highHalfOfBaseIsIgnored : Obligations.HighHalfOfBaseIsIgnored := by
  intro i s rt ra v v' hv hi
  have alike : ReadsAlike (s.setGpr ra v) (s.setGpr ra v') := ⟨rfl, rfl, rfl⟩
  have lowAlike (r : Reg) : memAddr ((s.setGpr ra v').gpr r) = memAddr ((s.setGpr ra v).gpr r) := by
    by_cases hr : r = ra
    · rw [hr, gpr_setGpr_same, gpr_setGpr_same, memAddr_congr hv]
    · rw [gpr_setGpr_ne s v' hr, gpr_setGpr_ne s v hr]
  have hrt : rt = destination i := by rcases hi with ⟨d, rfl⟩ | ⟨rb, rfl⟩ <;> rfl
  have noWriteBack : writeBackReg i = none := by rcases hi with ⟨d, rfl⟩ | ⟨rb, rfl⟩ <;> rfl
  refine alike.exec_transfer_of_memAddr (memAddr_effectiveAddr_congr lowAlike i) fun w k =>
    ⟨?_, fun r hr => ?_, by simp, by simp⟩
  · simp [loadEffect_gpr, noWriteBack, hrt]
  · simp [loadEffect_gpr, noWriteBack, gpr_setGpr_ne s _ hr]

/-! ### The outcomes of a valid load (40_load_word_and_zero.md R90, R96) -/

/-- Zero extension keeps the number (40_load_word_and_zero.md R96). -/
theorem toNat_zeroExtend (w : Word) : (zeroExtend w).toNat = w.toNat :=
  BitVec.toNat_setWidth_of_le (by decide)

/-- Settles O37: the destination holds the zero extension of a 32-bit word. -/
theorem loadedRegisterIsZeroExtended : Obligations.LoadedRegisterIsZeroExtended := by
  intro i s t h
  obtain ⟨w, u, hr, hg⟩ := exec_gpr_destination h
  rw [hg, toNat_zeroExtend]
  exact ⟨⟨w, u, hr, rfl⟩, w.isLt⟩

/-- A valid load above `0xFFFF_FFFC` is refused (20_memory.md R47). -/
theorem exec_of_past_top {i : Instr} {s : State} (hi : i.wellFormed = true)
    (h : 0xFFFFFFFC < (memAddr (effectiveAddr i s)).toNat) : exec i s = .refused .accessWrapsAddressSpace := by
  rw [exec_of_wellFormed hi, dataRead_of_past_top h, andThen_refused]

/-- A valid load that touches a byte outside `Mapped` is stuck (20_memory.md R48). -/
theorem exec_of_someUnmapped {i : Instr} {s : State} (hi : i.wellFormed = true)
    (h : (memAddr (effectiveAddr i s)).toNat ≤ 0xFFFFFFFC) (hu : SomeUnmapped s.mem (memAddr (effectiveAddr i s))) :
    exec i s = .fault (.unmapped (memAddr (effectiveAddr i s))) := by
  rw [exec_of_wellFormed hi, dataRead_of_someUnmapped h hu, andThen_fault]

/-- In either world a data read at four listed bytes answers `answeredWord` (20_memory.md R43, R46). -/
theorem dataRead_of_bytesAt {s : State} {a : Addr} {b0 b1 b2 b3 : Byte} (h : BytesAt s.mem a b0 b1 b2 b3) :
    ∃ k, dataRead s a = .next (answeredWord s b0 b1 b2 b3, s.skipOracle k) := by
  cases hm : s.memMode with
  | closedWorld => exact ⟨0, by rw [dataRead_closedWorld h hm, answeredWord, hm]; rfl⟩
  | openWorld => exact ⟨4, by rw [dataRead_openWorld h hm, answeredWord, hm]⟩

/-- A valid load at four listed bytes completes: what each register, `pc` and memory then hold
(40_load_word_and_zero.md R90). -/
theorem exec_of_bytesAt {i : Instr} {s : State} {b0 b1 b2 b3 : Byte} (hi : i.wellFormed = true)
    (hb : BytesAt s.mem (memAddr (effectiveAddr i s)) b0 b1 b2 b3) :
    ∃ t, exec i s = .next t ∧ t.gpr (destination i) = zeroExtend (answeredWord s b0 b1 b2 b3) ∧
      (∀ r, writeBackReg i = some r → t.gpr r = effectiveAddr i s) ∧
      (∀ r, r ≠ destination i → writeBackReg i ≠ some r → t.gpr r = s.gpr r) ∧ t.pc = s.pc + 4#32 ∧ t.mem = s.mem := by
  obtain ⟨k, hr⟩ := dataRead_of_bytesAt hb
  have h := exec_of_dataRead hi hr
  refine ⟨_, h, loadEffect_gpr_destination hi _ _ k s, fun r hw => ?_,
    fun r hd hb => ?_, exec_pc h, exec_mem h⟩
  · rw [loadEffect_gpr, if_pos hw, updateValue]
  · rw [loadEffect_gpr, if_neg hb, if_neg hd]

/-- In the closed world the destination then holds the value of the four bytes (20_memory.md R43 (3)). -/
theorem toNat_zeroExtend_answeredWord {s : State} (hm : s.memMode = .closedWorld) (b0 b1 b2 b3 : Byte) :
    (zeroExtend (answeredWord s b0 b1 b2 b3)).toNat =
      b0.toNat * 2 ^ 24 + b1.toNat * 2 ^ 16 + b2.toNat * 2 ^ 8 + b3.toNat := by
  rw [toNat_zeroExtend, answeredWord, hm, toNat_beWord]

/-! ### The four meanings (40_load_word_and_zero.md R91 to R94) -/

/-- Settles O30: the registers after a completed load, by whether the form writes back. -/
theorem eachLoadDoesFourThings : Obligations.EachLoadDoesFourThings := by
  intro s rt ra rb d b0 b1 b2 b3 hm base disp word
  have value : (zeroExtend (answeredWord s b0 b1 b2 b3)).toNat = word := toNat_zeroExtend_answeredWord hm b0 b1 b2 b3
  refine ⟨fun hb => ?_, fun h0 ht hb => ?_, fun h0 ht hb => ?_, fun hb => ?_,
    fun rt ra rb d => ⟨⟨rfl, rfl⟩, wellFormed_lwzu, wellFormed_lwzux⟩⟩
  · obtain ⟨t, h, hrt, -, frame, hpc, -⟩ := exec_of_bytesAt (i := .lwz rt ra d) rfl hb
    exact ⟨t, h, hrt ▸ value, fun ht => frame ra ht nofun, hpc⟩
  · obtain ⟨t, h, hrt, hra, -, hpc, -⟩ := exec_of_bytesAt (wellFormed_lwzu.mpr ⟨h0, ht⟩) hb
    exact ⟨t, h, hrt ▸ value, hra ra rfl, hpc⟩
  · obtain ⟨t, h, hrt, hra, -, hpc, -⟩ := exec_of_bytesAt (wellFormed_lwzux.mpr ⟨h0, ht⟩) hb
    exact ⟨t, h, hrt ▸ value, hra ra rfl, hpc⟩
  · obtain ⟨t, h, hrt, -, frame, hpc, -⟩ := exec_of_bytesAt (i := .lwzx rt ra rb) rfl hb
    exact ⟨t, h, hrt ▸ value, fun ht => frame ra ht nofun, hpc⟩

/-- Settles O31: the outcomes of a valid load, for the one form `lwz` has. -/
theorem lwzMeaning : Obligations.LwzMeaning := by
  intro s rt ra d ea
  refine ⟨toNat_encodeD (by decide) rt ra d, decodeOfEncodeIsTheInstruction _ rfl, fun b0 b1 b2 b3 hb => ?_,
    exec_of_someUnmapped (i := .lwz rt ra d) rfl, exec_of_past_top (i := .lwz rt ra d) rfl⟩
  obtain ⟨t, h, hrt, -, frame, hpc, hmem⟩ := exec_of_bytesAt (i := .lwz rt ra d) rfl hb
  exact ⟨t, h, hrt, fun r hr => frame r hr nofun, hpc, hmem⟩

/-- Settles O32: the invalid forms are refused, and a valid one has the outcomes of a valid load. -/
theorem lwzuMeaning : Obligations.LwzuMeaning := by
  intro s rt ra d ea
  refine ⟨toNat_encodeD (by decide) rt ra d, fun h => loadZeroUpdate_of_invalid h _ s, fun h0 ht => ?_⟩
  have hi : (Instr.lwzu rt ra d).wellFormed = true := wellFormed_lwzu.mpr ⟨h0, ht⟩
  refine ⟨decodeOfEncodeIsTheInstruction _ hi, fun b0 b1 b2 b3 hb => ?_, exec_of_someUnmapped hi, exec_of_past_top hi⟩
  obtain ⟨t, h, hrt, hra, frame, hpc, hmem⟩ := exec_of_bytesAt hi hb
  exact ⟨t, h, hrt, hra ra rfl, fun r hr hr' => frame r hr fun e => hr' (Option.some.inj e).symm, hpc, hmem⟩

/-- Settles O33: as for `lwzu`; nothing is asked of `RB`. -/
theorem lwzuxMeaning : Obligations.LwzuxMeaning := by
  intro s rt ra rb ea
  have word := toNat_encodeX (opcd := 31) (xo := 55) (rc := 0) (by decide) (by decide) (by decide) rt ra rb
  refine ⟨word.trans (by omega), fun h => loadZeroUpdate_of_invalid h _ s, fun h0 ht => ?_⟩
  have hi : (Instr.lwzux rt ra rb).wellFormed = true := wellFormed_lwzux.mpr ⟨h0, ht⟩
  refine ⟨decodeOfEncodeIsTheInstruction _ hi, fun b0 b1 b2 b3 hb => ?_, exec_of_someUnmapped hi, exec_of_past_top hi⟩
  obtain ⟨t, h, hrt, hra, frame, hpc, hmem⟩ := exec_of_bytesAt hi hb
  exact ⟨t, h, hrt, hra ra rfl, fun r hr hr' => frame r hr fun e => hr' (Option.some.inj e).symm, hpc, hmem⟩

/-- Settles O34: as for `lwz`, with the index register as the offset. -/
theorem lwzxMeaning : Obligations.LwzxMeaning := by
  intro s rt ra rb ea
  have word := toNat_encodeX (opcd := 31) (xo := 23) (rc := 0) (by decide) (by decide) (by decide) rt ra rb
  refine ⟨word.trans (by omega), decodeOfEncodeIsTheInstruction _ rfl, fun b0 b1 b2 b3 hb => ?_,
    exec_of_someUnmapped (i := .lwzx rt ra rb) rfl, exec_of_past_top (i := .lwzx rt ra rb) rfl⟩
  obtain ⟨t, h, hrt, -, frame, hpc, hmem⟩ := exec_of_bytesAt (i := .lwzx rt ra rb) rfl hb
  exact ⟨t, h, hrt, fun r hr => frame r hr nofun, hpc, hmem⟩

/-! ### An update form as the plain form and a write-back (40_load_word_and_zero.md R90) -/

/-- The write-back of a valid update form comes last: `pc` and `RA` are written independently. -/
theorem loadZeroUpdate_eq_andThen {rt ra : Reg} (h0 : ra ≠ 0) (ht : ra ≠ rt) (ea : Dword) (s : State) :
    loadZeroUpdate rt ra ea s = andThen (loadZero rt ea s) fun u => .next (u.setGpr ra (updateValue ea)) := by
  rw [loadZeroUpdate, if_neg (not_or.mpr ⟨h0, ht⟩), loadZero]
  cases dataRead s (memAddr ea) <;> rfl

/-- A valid update form completes exactly when the plain load does, in a state that differs by the write-back. -/
theorem loadZeroUpdate_eq_next_iff {rt ra : Reg} (h0 : ra ≠ 0) (ht : ra ≠ rt) {ea : Dword} {s t : State} :
    loadZeroUpdate rt ra ea s = .next t ↔ ∃ u, loadZero rt ea s = .next u ∧ t = u.setGpr ra ea := by
  simp only [loadZeroUpdate_eq_andThen h0 ht, andThen_eq_next, updateValue, Host.Outcome.next.injEq, eq_comm (a := t)]

/-- Settles O35: for `RA` other than 0 both forms have one effective address, and the update form writes it last. -/
theorem updateFormIsLoadThenWriteBack : Obligations.UpdateFormIsLoadThenWriteBack := by
  intro s t rt ra rb d h0 ht
  have disp : eaLwz s ra d = eaLwzu s ra d := eaLwz_of_ne_zero h0 s d
  have index : eaLwzx s ra rb = eaLwzux s ra rb := by rw [eaLwzx, base0_of_ne_zero h0, eaLwzux]
  simp only [exec, execLwz, execLwzx, disp, index]
  exact ⟨loadZeroUpdate_eq_next_iff h0 ht, loadZeroUpdate_eq_next_iff h0 ht⟩

/-! ### Runs (40_load_word_and_zero.md R98; 10_state.md R24) -/

/-- At a multiple of 4 below the last word's address, adding 4 does not wrap (10_state.md R24 (c)). -/
theorem toNat_add_four {a : Addr} (h4 : a.toNat % 4 = 0) (ha : a ≠ Config.lastWordAddr) :
    (a + 4#32).toNat = a.toNat + 4 := by
  simp only [Config.lastWordAddr] at ha
  bv_omega

section
variable {s t : State} (h : step s = .next t)
include h

/-- A completed step is a completed instruction. -/
theorem exists_exec_of_step : ∃ i, exec i s = .next t := by
  obtain ⟨_, i, -, -, he⟩ := step_eq_next.mp h
  exact ⟨i, he⟩

/-- There is no step from a final state (70_reset_and_hazards.md R132). -/
theorem pc_ne_endPc_of_step : s.pc ≠ s.endPc := by
  obtain ⟨_, _, hf, -, -⟩ := step_eq_next.mp h
  obtain ⟨hend, -, -, -⟩ := fetchWord_eq_next.mp hf
  exact hend

/-- A completed step advances `pc` by 4 without wrapping (10_state.md R24 (c)). -/
theorem toNat_pc_of_step : t.pc.toNat = s.pc.toNat + 4 := by
  obtain ⟨_, _, hf, -, he⟩ := step_eq_next.mp h
  obtain ⟨-, h4, hlast, -⟩ := fetchWord_eq_next.mp hf
  rw [exec_pc he, toNat_add_four h4 hlast]

/-- A step changes nothing that the launch fixed (70_reset_and_hazards.md R130). -/
theorem step_launchArguments : t.mem = s.mem ∧ t.endPc = s.endPc ∧ t.memMode = s.memMode := by
  obtain ⟨i, he⟩ := exists_exec_of_step h
  exact ⟨exec_mem he, exec_endPc he, exec_memMode he⟩

end

/-- A run of `n + 1` steps is a step and a run of `n`. -/
theorem steps_succ_eq_next {n : Nat} {s t : State} :
    steps (n + 1) s = .next t ↔ ∃ u, step s = .next u ∧ steps n u = .next t := andThen_eq_next

/-- Settles O55, by induction on the number of steps: the first step is by the lemmas about a step, the rest of the run
by the hypothesis at the state it leads to. -/
theorem runsAreStraightLine : Obligations.RunsAreStraightLine := by
  intro n
  induction n with
  | zero =>
    intro s t h
    cases h
    simp
  | succ n ih =>
    intro s t h
    obtain ⟨u, hstep, hrun⟩ := steps_succ_eq_next.mp h
    obtain ⟨hmem, hend, hmode⟩ := step_launchArguments hstep
    have hpc := toNat_pc_of_step hstep
    obtain ⟨tpc, tmem, tend, tmode, notFinal⟩ := ih u t hrun
    refine ⟨by omega, tmem.trans hmem, tend.trans hend, tmode.trans hmode, fun k hk => ?_⟩
    cases k with
    | zero => exact fun e => pc_ne_endPc_of_step hstep (BitVec.eq_of_toNat_eq e.symm)
    | succ k =>
      have later := notFinal k (by omega)
      rw [hend] at later
      omega

end Sys2Proof.Machine

namespace Sys2Proof.Machine

/-! ### Complete runs (60_exceptions.md R113; 70_reset_and_hazards.md R131, R132) -/

/-- At `END_PC` the fetch stops the step (70_reset_and_hazards.md R132). -/
theorem step_of_pc_eq_endPc {s : State} (h : s.pc = s.endPc) : step s = .fault .runOver := by
  rw [step, fetchInstr, fetchWord, if_pos h, andThen_fault, andThen_fault]

/-- Where every check of R113 is passed, the step completes. -/
theorem exists_step_of_canStep {s : State} (h : CanStep s) : ∃ t, step s = .next t := by
  obtain ⟨hend, h4, hlast, insn, i, hr, hd, hmap⟩ := h
  have notLast : s.pc ≠ Config.lastWordAddr := fun e => hlast (congrArg BitVec.toNat e)
  obtain ⟨valid, -⟩ := wellFormed_and_encode_of_decodeWord hd
  obtain ⟨b0, b1, b2, b3, hb⟩ := wordMapped_iff_bytesAt.mp hmap
  obtain ⟨t, he, -⟩ := exec_of_bytesAt valid hb
  exact ⟨t, step_eq_next.mpr ⟨insn, i, fetchWord_eq_next.mpr ⟨hend, h4, notLast, hr⟩, hd, he⟩⟩

/-- A launch for no instruction starts at `END_PC`. -/
theorem LaunchPremises.pc_eq_endPc {s : State} (h : LaunchPremises 0 s) : s.pc = s.endPc :=
  BitVec.eq_of_toNat_eq h.endPcIs.symm

/-- A launch for at least one instruction can take its first step: P1 puts `pc` below `END_PC`, and P2 and P3 hold of
the first instruction. -/
theorem LaunchPremises.canStep {n : Nat} {s : State} (h : LaunchPremises (n + 1) s) : CanStep s := by
  obtain ⟨h4, hfits, hend, hwords, hloads⟩ := h
  obtain ⟨insn, i, hr, hd⟩ := hwords 0 (by omega)
  rw [Nat.mul_zero, BitVec.add_zero] at hr
  have notFinal : s.pc ≠ s.endPc := by
    intro e
    rw [e] at hend
    omega
  exact ⟨notFinal, h4, by omega, insn, i, hr, hd, hloads 0 (by omega) s insn i rfl hr hd⟩

/-- After its first step the rest of a launch meets the premises for one instruction less: word `k` of the rest is word
`k + 1` of the whole, and `k` steps of the rest are `k + 1` of the whole. -/
theorem LaunchPremises.of_step {n : Nat} {s u : State} (h : LaunchPremises (n + 1) s) (hu : step s = .next u) :
    LaunchPremises n u := by
  obtain ⟨h4, hfits, hend, hwords, hloads⟩ := h
  obtain ⟨umem, uend, -⟩ := step_launchArguments hu
  have hpc := toNat_pc_of_step hu
  refine ⟨by omega, by omega, by rw [uend]; omega, fun k hk => ?_, fun k hk t insn i ht => ?_⟩
  · have later : u.pc + BitVec.ofNat 32 (4 * k) = s.pc + BitVec.ofNat 32 (4 * (k + 1)) := by bv_omega
    rw [umem, later]
    exact hwords (k + 1) (by omega)
  · exact hloads (k + 1) (by omega) t insn i (steps_succ_eq_next.mpr ⟨u, hu, ht⟩)

/-- Settles O56, by induction on the number of instructions: the premises give the first step and hold again after it;
where none is left, `pc` is `END_PC`. -/
theorem launchPremisesGiveACompleteRun : Obligations.LaunchPremisesGiveACompleteRun := by
  intro n
  induction n with
  | zero =>
    intro s h
    exact ⟨s, rfl, h.pc_eq_endPc, step_of_pc_eq_endPc h.pc_eq_endPc⟩
  | succ n ih =>
    intro s h
    obtain ⟨u, hstep⟩ := exists_step_of_canStep h.canStep
    obtain ⟨t, hrun, final⟩ := ih u (h.of_step hstep)
    exact ⟨t, steps_succ_eq_next.mpr ⟨u, hstep, hrun⟩, final⟩

end Sys2Proof.Machine

namespace Sys2Proof

/-! ### The decoder against the masks of the opcode map (30_encoding.md R66 to R70) -/

/-- Settles O1: the decoder evaluated on each word. -/
theorem opcodeWordsDecode : Obligations.OpcodeWordsDecode := by
  unfold Obligations.OpcodeWordsDecode
  decide

/-- Settles O6: the first half of what decoding says of the word. -/
theorem decodedInstructionsAreWellFormed : Obligations.DecodedInstructionsAreWellFormed := by
  intro insn i h
  obtain ⟨valid, -⟩ := wellFormed_and_encode_of_decodeWord h
  exact valid

/-- The check of an update form as a test of its registers (30_encoding.md R69). -/
theorem checkForm_of_wellFormed_iff {i : Instr} {rt ra : Reg} (h : i.wellFormed = true ↔ ra ≠ 0 ∧ ra ≠ rt) :
    checkForm i = if ra = 0 ∨ ra = rt then .error .invalidForm else .ok i := by
  rw [← not_or] at h
  split
  · next invalid => exact checkForm_of_not_wellFormed fun valid => h.mp valid invalid
  · next valid => exact checkForm_of_wellFormed (h.mpr valid)

/-- The X form mask without its `Rc` bit keeps `OPCD` and `XO`. -/
theorem toNat_and_maskX_without_rc (insn : Word) :
    (insn &&& 0xFC0007FE#32).toNat = fieldOPCD insn * 2 ^ 26 + fieldXO insn * 2 := by
  have masks : 0xFC0007FE#32 = 0xFC0007FF#32 &&& BitVec.allOnes 32 <<< 1 := by decide
  rw [masks, ← BitVec.and_assoc, ← BitVec.shiftLeft_ushiftRight, BitVec.toNat_shiftLeft, BitVec.toNat_ushiftRight,
    toNat_and_maskX, Nat.shiftLeft_eq, Nat.shiftRight_eq_div_pow, fieldOPCD_eq, fieldXO_eq, fieldRc_eq]
  omega

/-- A word has the masked bits of an X form row, `Rc` left out, exactly when it has its `OPCD` and `XO`. -/
theorem and_maskX_without_rc_eq_iff {insn : Word} {opcd xo : Nat} (ho : opcd < 64) (hx : xo < 1024) :
    insn &&& 0xFC0007FE#32 = BitVec.ofNat 32 (opcd * 2 ^ 26 + xo * 2) ↔
      fieldOPCD insn = opcd ∧ fieldXO insn = xo := by
  have hx' := fieldXO_eq insn
  rw [← BitVec.toNat_inj, toNat_and_maskX_without_rc, BitVec.toNat_ofNat]
  omega

section
variable {insn : Word}

theorem and_maskD_eq_lwz : insn &&& 0xFC000000#32 = 0x80000000#32 ↔ fieldOPCD insn = 32 :=
  and_maskD_eq_iff (opcd := 32) (by decide)

theorem and_maskD_eq_lwzu : insn &&& 0xFC000000#32 = 0x84000000#32 ↔ fieldOPCD insn = 33 :=
  and_maskD_eq_iff (opcd := 33) (by decide)

/-- A word of no row, with `Rc` left out of the masks, is not in the spec (30_encoding.md R70). -/
theorem decodeWord_of_no_mask (hlwz : insn &&& 0xFC000000#32 ≠ 0x80000000#32)
    (hlwzu : insn &&& 0xFC000000#32 ≠ 0x84000000#32) (hlwzux : insn &&& 0xFC0007FE#32 ≠ 0x7C00006E#32)
    (hlwzx : insn &&& 0xFC0007FE#32 ≠ 0x7C00002E#32) : decodeWord insn = .error .notInSpec := by
  have lwzux : insn &&& 0xFC0007FE#32 = 0x7C00006E#32 ↔ _ :=
    and_maskX_without_rc_eq_iff (opcd := 31) (xo := 55) (by decide) (by decide)
  have lwzx : insn &&& 0xFC0007FE#32 = 0x7C00002E#32 ↔ _ :=
    and_maskX_without_rc_eq_iff (opcd := 31) (xo := 23) (by decide) (by decide)
  refine decodeWord_of_no_row (mt and_maskD_eq_lwz.mpr hlwz) (mt and_maskD_eq_lwzu.mpr hlwzu) ?_
  rintro ⟨ho, hx | hx⟩
  · exact hlwzx (lwzx.mpr ⟨ho, hx⟩)
  · exact hlwzux (lwzux.mpr ⟨ho, hx⟩)

end

/-- Settles O7: the masked bits fix the tests of the decoder, and the equation of each test gives what it answers. -/
theorem decodeFollowsMasks : Obligations.DecodeFollowsMasks := by
  intro insn
  have maskX {xo rc : Nat} (hx : xo < 1024) (hc : rc < 2) :=
    (and_maskX_eq_iff (insn := insn) (opcd := 31) (by decide) hx hc).mp
  refine ⟨fun h => ?_, fun h => ?_, fun h => ?_, fun h => ?_, fun h => ?_, decodeWord_of_no_mask⟩
  · rw [decodeWord_of_opcd_32 (and_maskD_eq_lwz.mp h), checkForm_of_wellFormed rfl]
  · rw [decodeWord_of_opcd_33 (and_maskD_eq_lwzu.mp h), checkForm_of_wellFormed_iff wellFormed_lwzu]
  · obtain ⟨ho, hx, hc⟩ := maskX (xo := 55) (rc := 0) (by decide) (by decide) h
    rw [decodeWord_of_xo_55 ho hx hc, checkForm_of_wellFormed_iff wellFormed_lwzux]
  · obtain ⟨ho, hx, hc⟩ := maskX (xo := 23) (rc := 0) (by decide) (by decide) h
    rw [decodeWord_of_xo_23 ho hx hc, checkForm_of_wellFormed rfl]
  · rcases h with h | h
    · obtain ⟨ho, hx, hc⟩ := maskX (xo := 55) (rc := 1) (by decide) (by decide) h
      exact decodeWord_of_rc_1 ho (.inr hx) hc
    · obtain ⟨ho, hx, hc⟩ := maskX (xo := 23) (rc := 1) (by decide) (by decide) h
      exact decodeWord_of_rc_1 ho (.inl hx) hc

/-- Byte `k` of a word in memory is its field of 8 bits from `8 k` (00_scope.md R7, 20_memory.md R44). -/
theorem bitField_eq_toNat_wordByte (w : Word) {k : Nat} (hk : k < 4) :
    bitField w (8 * k) (8 * k + 7) = (wordByte w k).toNat := by
  have low : 31 - (8 * k + 7) = 24 - 8 * k := by omega
  have width : 8 * k + 7 - 8 * k + 1 = 8 := by omega
  rw [bitField, toNat_wordByte, low, width]

end Sys2Proof

namespace Sys2Proof.Machine

/-! ### What stops a step, check by check (60_exceptions.md R113) -/

/-- A misaligned `pc` is refused (10_state.md R24 (b)). -/
theorem step_of_pc_misaligned {s : State} (hend : s.pc ≠ s.endPc) (h4 : s.pc.toNat % 4 ≠ 0) :
    step s = .refused .pcMisaligned := by
  rw [step, fetchInstr, fetchWord, if_neg hend, if_pos h4, andThen_refused, andThen_refused]

/-- `pc = 0xFFFF_FFFC` is refused (10_state.md R24 (c)). -/
theorem step_of_pc_overflow {s : State} (hend : s.pc ≠ s.endPc) (hlast : s.pc.toNat = 0xFFFFFFFC) :
    step s = .refused .pcOverflow := by
  have last : s.pc = Config.lastWordAddr := BitVec.eq_of_toNat_eq hlast
  have aligned : ¬ s.pc.toNat % 4 ≠ 0 := by omega
  rw [step, fetchInstr, fetchWord, if_neg hend, if_neg aligned, if_pos last, andThen_refused, andThen_refused]

/-- A fetched word that does not decode stops the step with its refusal (60_exceptions.md R113 (4)). -/
theorem step_of_decodeWord_error {s : State} {insn : Word} {e : DecodeError} (hf : fetchWord s = .next insn)
    (hd : decodeWord insn = .error e) : step s = .refused (decodeRefusal e) := by
  rw [step, fetchInstr, hf, andThen_next, decodeFetched, hd, andThen_refused]

/-- A fetched word that decodes is run, with nothing around it (60_exceptions.md R113). -/
theorem step_of_decodeWord_ok {s : State} {insn : Word} {i : Instr} (hf : fetchWord s = .next insn)
    (hd : decodeWord insn = .ok i) : step s = exec i s := by
  rw [step, fetchInstr, hf, andThen_next, decodeFetched_eq_next.mpr hd, andThen_next]

/-- No check of `pc` ends the step: the conditions (0) to (2) of 60_exceptions.md R113 are not met. -/
structure PcInOrder (s : State) : Prop where
  notEnd : s.pc ≠ s.endPc
  aligned : s.pc.toNat % 4 = 0
  notLast : s.pc.toNat ≠ 0xFFFFFFFC

section
variable {s : State} (h : PcInOrder s)
include h

theorem PcInOrder.ne_lastWordAddr : s.pc ≠ Config.lastWordAddr := fun e => h.notLast (congrArg BitVec.toNat e)

/-- The four bytes at such a `pc` lie below `2 ^ 32`, and so does its successor (10_state.md R24 (c)). -/
theorem PcInOrder.toNat_lt : s.pc.toNat < 0xFFFFFFFC := by
  obtain ⟨-, h4, hlast⟩ := h
  have := s.pc.isLt
  omega

/-- At such a `pc` the fetch is the read of memory (20_memory.md R55). -/
theorem fetchWord_of_pcInOrder : fetchWord s = memRead s.mem s.pc := by
  rw [fetchWord, if_neg h.notEnd, if_neg (not_not.mpr h.aligned), if_neg h.ne_lastWordAddr]

/-- A fetch that touches a byte outside `Mapped` is stuck (20_memory.md R48, R56). -/
theorem fetchWord_of_someUnmapped (hu : SomeUnmapped s.mem s.pc) : fetchWord s = .fault (.unmapped s.pc) := by
  rw [fetchWord_of_pcInOrder h, memRead_of_someUnmapped h.toNat_lt.le hu]

theorem step_of_fetch_unmapped (hu : SomeUnmapped s.mem s.pc) : step s = .fault (.unmapped s.pc) := by
  rw [step, fetchInstr, fetchWord_of_someUnmapped h hu, andThen_fault, andThen_fault]

end

section
variable {s : State} {insn : Word} {i : Instr} (order : PcInOrder s) (hr : memRead s.mem s.pc = .next insn)
  (hd : decodeWord insn = .ok i)
include order hr hd

/-- Where the word in memory decodes, the step is the instruction's meaning. -/
theorem step_of_memRead_decodeWord : step s = exec i s :=
  step_of_decodeWord_ok ((fetchWord_of_pcInOrder order).trans hr) hd

theorem step_of_data_past_top (top : 0xFFFFFFFC < (memAddr (effectiveAddr i s)).toNat) :
    step s = .refused .accessWrapsAddressSpace := by
  obtain ⟨valid, -⟩ := wellFormed_and_encode_of_decodeWord hd
  rw [step_of_memRead_decodeWord order hr hd, exec_of_past_top valid top]

theorem step_of_data_unmapped (below : (memAddr (effectiveAddr i s)).toNat ≤ 0xFFFFFFFC)
    (unmapped : SomeUnmapped s.mem (memAddr (effectiveAddr i s))) :
    step s = .fault (.unmapped (memAddr (effectiveAddr i s))) := by
  obtain ⟨valid, -⟩ := wellFormed_and_encode_of_decodeWord hd
  rw [step_of_memRead_decodeWord order hr hd, exec_of_someUnmapped valid below unmapped]

theorem canStep_of_data_mapped (mapped : WordMapped s.mem (memAddr (effectiveAddr i s))) : CanStep s :=
  ⟨order.notEnd, order.aligned, order.notLast, insn, i, hr, hd, mapped⟩

end

/-- Settles O10: the word decodes to that refusal, whatever its register fields. -/
theorem recordFormsAreRefused : Obligations.RecordFormsAreRefused := by
  intro s insn ho hx hc hf
  rw [← fieldOPCD_eq] at ho
  rw [← fieldXO_eq] at hx
  rw [← fieldRc_eq] at hc
  exact step_of_decodeWord_error hf (decodeWord_of_rc_1 ho hx hc)

/-- Settles O11: the decoder's two tests of an update form; a step ends as decoding does; the meaning tests the form
itself. -/
theorem invalidUpdateFormsAreRefused : Obligations.InvalidUpdateFormsAreRefused := by
  refine ⟨fun s insn hrow hra => ?_, fun s rt ra rb d h =>
    ⟨loadZeroUpdate_of_invalid h _ s, loadZeroUpdate_of_invalid h _ s⟩⟩
  have refused : decodeWord insn = .error .invalidForm := by
    obtain ⟨-, lwzu, -, -, -, -, lwzux, -, -⟩ := decodeTestsInOrder insn
    rcases hrow with ho | ⟨ho, hx, hc⟩
    · exact lwzu ho hra
    · exact lwzux ho hx hc hra
  exact ⟨refused, fun hf => step_of_decodeWord_error hf refused⟩

/-- Settles O12: the word decodes to that refusal. -/
theorem otherWordsAreNotInSpec : Obligations.OtherWordsAreNotInSpec :=
  fun _ _ hlwz hlwzu hlwzux hlwzx hf =>
    step_of_decodeWord_error hf (decodeWord_of_no_mask hlwz hlwzu hlwzux hlwzx)

/-- Settles O15: the fetch reads memory, and byte `k` of the word read is its field of 8 bits from `8 k`. -/
theorem fetchIsBigEndianFromMemory : Obligations.FetchIsBigEndianFromMemory := by
  intro s hend h4 hlast
  have order : PcInOrder s := ⟨hend, h4, hlast⟩
  refine ⟨fun b0 b1 b2 b3 hb => ⟨beWord b0 b1 b2 b3, ?_, ?_⟩, fetchWord_of_someUnmapped order⟩
  · rw [fetchWord_of_pcInOrder order, memRead_of_bytesAt hb]
  · have field (k : Fin 4) : bitField (beWord b0 b1 b2 b3) (8 * k) (8 * k + 7) = (![b0, b1, b2, b3] k).toNat := by
      rw [bitField_eq_toNat_wordByte _ k.isLt, wordByte_beWord]
    exact ⟨field 0, field 1, field 2, field 3⟩

/-- Settles O46: the end of the run is tested first. -/
theorem runIsOverAtEndPc : Obligations.RunIsOverAtEndPc := fun _ => step_of_pc_eq_endPc

/-- Settles O47: the two refusals; elsewhere the successor is below the top. -/
theorem pcIsCheckedAndNeverWraps : Obligations.PcIsCheckedAndNeverWraps := by
  refine fun s hend => ⟨step_of_pc_misaligned hend, step_of_pc_overflow hend, fun h4 hlast => ?_⟩
  have order : PcInOrder s := ⟨hend, h4, hlast⟩
  have := order.toNat_lt
  exact ⟨by omega, toNat_add_four h4 order.ne_lastWordAddr⟩

/-- Settles O45: the fetch answers the word in memory, and a word that decodes is run. -/
theorem stepRunsTheDecodedInstruction : Obligations.StepRunsTheDecodedInstruction :=
  fun _ _ _ hend h4 hlast => step_of_memRead_decodeWord ⟨hend, h4, hlast⟩

/-! ### Data accesses (20_memory.md R46 to R49) -/

/-- Settles O18: the oracle answers the read, and the effect of the load puts word and address in place. -/
theorem openWorldLoadsTakeOracleBytes : Obligations.OpenWorldLoadsTakeOracleBytes := by
  intro i s hm hi hmap
  obtain ⟨b0, b1, b2, b3, hb⟩ := wordMapped_iff_bytesAt.mp hmap
  refine ⟨_, exec_of_dataRead hi (dataRead_openWorld hb hm), by simp [loadEffect], ?_, fun r hr hne => ?_⟩
  · rw [loadEffect_gpr_destination hi, toNat_zeroExtend, State.oracleWord, toNat_beWord]
  · have back : writeBackReg i = some r := (mem_regsWritten.mp hr).resolve_left hne
    rw [loadEffect_gpr, if_pos back, updateValue]

/-- Settles O19: the outcome of a valid load there. -/
theorem loadsPastTheTopAreRefused : Obligations.LoadsPastTheTopAreRefused :=
  fun _ _ => exec_of_past_top

/-- Settles O20: the outcomes of a valid load and of a fetch there. -/
theorem unmappedAccessesAreStuck : Obligations.UnmappedAccessesAreStuck :=
  ⟨fun _ _ => exec_of_someUnmapped, fun _ hend h4 hlast => step_of_fetch_unmapped ⟨hend, h4, hlast⟩⟩

/-- Settles O21: a closed read leaves the state itself, an open one only skips oracle bytes. -/
theorem dataReadsHaveNoSideEffect : Obligations.DataReadsHaveNoSideEffect := by
  intro s t a w h
  rcases dataRead_eq_next h with ⟨-, -, rfl⟩ | ⟨isOpen, -, -, rfl⟩
  · exact ⟨rfl, rfl, rfl, rfl, rfl, fun _ => ⟨rfl, h⟩⟩
  · refine ⟨rfl, rfl, rfl, rfl, rfl, fun closed => ?_⟩
    rw [isOpen] at closed
    cases closed

/-- Settles O39: the only part of a load that moves the oracle is its read. -/
theorem oraclePositionCountsBytes : Obligations.OraclePositionCountsBytes := by
  intro i s t h
  obtain ⟨-, w, u, hr, rfl⟩ := exec_eq_next h
  rcases dataRead_eq_next hr with ⟨closed, -, rfl⟩ | ⟨isOpen, -, -, rfl⟩
  · simp [closed]
  · simp [isOpen]

/-- Settles O42: an address whose high half is 0 is the number its low half is. -/
theorem writeBackReadingsAgree : Obligations.WriteBackReadingsAgree := by
  intro ea h
  have high : ea.toNat / 2 ^ 32 = 0 := by
    have := congrArg BitVec.toNat h
    rw [BitVec.extractLsb_toNat, Nat.shiftRight_eq_div_pow, BitVec.toNat_zero] at this
    omega
  apply BitVec.eq_of_toNat_eq
  rw [updateValue, BitVec.toNat_setWidth_of_le (by decide), BitVec.toNat_setWidth]
  omega

/-! ### Placing an instruction (70_reset_and_hazards.md R131, R136) -/

/-- The bytes of a placed word are where the launch put them: the four addresses differ. -/
theorem bytesAt_writeWord (m : Memory) {a : Addr} (ha : a.toNat ≤ 0xFFFFFFFC) (w : Word) :
    BytesAt (Memory.writeWord m a w) a (wordByte w 0) (wordByte w 1) (wordByte w 2) (wordByte w 3) := by
  refine ⟨ha, ?_, ?_, ?_, memory_read_write_same _ _ _⟩
  · rw [Memory.writeWord, memory_read_write_ne _ _ (by bv_omega), memory_read_write_ne _ _ (by bv_omega),
      memory_read_write_ne _ _ (by bv_omega), memory_read_write_same]
  · rw [Memory.writeWord, memory_read_write_ne _ _ (by bv_omega), memory_read_write_ne _ _ (by bv_omega),
      memory_read_write_same]
  · rw [Memory.writeWord, memory_read_write_ne _ _ (by bv_omega), memory_read_write_same]

/-- A placed word reads back. -/
theorem memRead_writeWord (m : Memory) {a : Addr} (ha : a.toNat ≤ 0xFFFFFFFC) (w : Word) :
    memRead (Memory.writeWord m a w) a = .next w := by
  rw [memRead_of_bytesAt (bytesAt_writeWord m ha w), beWord_wordByte]

/-- Placing an instruction keeps `END_PC` off it. -/
theorem placeInstr_pc_ne_endPc (s : State) (w : Word) : (placeInstr s w).pc ≠ (placeInstr s w).endPc := by
  change s.pc ≠ if s.endPc = s.pc then s.pc + 4#32 else s.endPc
  split
  · bv_omega
  · next h => exact Ne.symm h

/-- Settles O22: with an instruction placed at it `pc` is in order, and the fetch reads the word back. -/
theorem placedInstructionRunsNext : Obligations.PlacedInstructionRunsNext := by
  intro s insn i h4 hlast hd
  have order : PcInOrder (placeInstr s insn) := ⟨placeInstr_pc_ne_endPc s insn, h4, hlast⟩
  exact step_of_memRead_decodeWord order (memRead_writeWord s.mem order.toNat_lt.le insn) hd

/-! ### Every outcome of a step with its condition (60_exceptions.md R111, R113) -/

/-- The outcomes a step from `s` can have, each under the condition that leads to it. -/
inductive StepOutcome (s : State) : Host.Outcome State Fault Refusal → Prop where
  | runOver : s.pc = s.endPc → StepOutcome s (.fault .runOver)
  | pcMisaligned : s.pc.toNat % 4 ≠ 0 → StepOutcome s (.refused .pcMisaligned)
  | pcOverflow : s.pc.toNat = 0xFFFFFFFC → StepOutcome s (.refused .pcOverflow)
  | fetchUnmapped : SomeUnmapped s.mem s.pc → StepOutcome s (.fault (.unmapped s.pc))
  | undecoded {insn : Word} (e : DecodeError) : memRead s.mem s.pc = .next insn → decodeWord insn = .error e →
      StepOutcome s (.refused (decodeRefusal e))
  | pastTop {insn : Word} {i : Instr} : memRead s.mem s.pc = .next insn → decodeWord insn = .ok i →
      0xFFFFFFFC < (memAddr (effectiveAddr i s)).toNat → StepOutcome s (.refused .accessWrapsAddressSpace)
  | dataUnmapped {insn : Word} {i : Instr} : memRead s.mem s.pc = .next insn → decodeWord insn = .ok i →
      SomeUnmapped s.mem (memAddr (effectiveAddr i s)) →
      StepOutcome s (.fault (.unmapped (memAddr (effectiveAddr i s))))
  | next (t : State) : CanStep s → StepOutcome s (.next t)

/-- Where the fetched word decodes, the data read decides between completion and the last two stops. -/
theorem stepOutcome_step_of_decodeWord {s : State} {insn : Word} {i : Instr} (order : PcInOrder s)
    (hr : memRead s.mem s.pc = .next insn) (hd : decodeWord insn = .ok i) : StepOutcome s (step s) := by
  rcases read_cases s.mem (memAddr (effectiveAddr i s)) with top | ⟨below, unmapped⟩ | mapped
  · rw [step_of_data_past_top order hr hd top]
    exact .pastTop hr hd top
  · rw [step_of_data_unmapped order hr hd below unmapped]
    exact .dataUnmapped hr hd unmapped
  · have can := canStep_of_data_mapped order hr hd mapped
    obtain ⟨t, ht⟩ := exists_step_of_canStep can
    rw [ht]
    exact .next t can

/-- The list is complete: the checks in their order. -/
theorem stepOutcome_step (s : State) : StepOutcome s (step s) := by
  by_cases hend : s.pc = s.endPc
  · rw [step_of_pc_eq_endPc hend]
    exact .runOver hend
  by_cases h4 : s.pc.toNat % 4 = 0
  case neg =>
    rw [step_of_pc_misaligned hend h4]
    exact .pcMisaligned h4
  by_cases hlast : s.pc.toNat = 0xFFFFFFFC
  · rw [step_of_pc_overflow hend hlast]
    exact .pcOverflow hlast
  have order : PcInOrder s := ⟨hend, h4, hlast⟩
  rcases read_cases s.mem s.pc with top | ⟨-, unmapped⟩ | mapped
  · exact absurd top order.toNat_lt.le.not_gt
  · rw [step_of_fetch_unmapped order unmapped]
    exact .fetchUnmapped unmapped
  · obtain ⟨b0, b1, b2, b3, hb⟩ := wordMapped_iff_bytesAt.mp mapped
    have hr := memRead_of_bytesAt hb
    cases hd : decodeWord (beWord b0 b1 b2 b3) with
    | ok i => exact stepOutcome_step_of_decodeWord order hr hd
    | error e =>
      rw [step_of_decodeWord_error ((fetchWord_of_pcInOrder order).trans hr) hd]
      exact .undecoded e hr hd

/-- Settles O48: the lemma of each check, under the failure of those before it. -/
theorem stepChecksInOrder : Obligations.StepChecksInOrder := by
  refine fun s => ⟨step_of_pc_eq_endPc, step_of_pc_misaligned, step_of_pc_overflow, fun hend h4 hlast => ?_⟩
  have order : PcInOrder s := ⟨hend, h4, hlast⟩
  refine ⟨step_of_fetch_unmapped order, fun insn hr => ?_⟩
  have fetched : fetchWord s = .next insn := (fetchWord_of_pcInOrder order).trans hr
  exact ⟨step_of_decodeWord_error fetched, step_of_decodeWord_error fetched, step_of_decodeWord_error fetched,
    fun i hd => ⟨step_of_data_past_top order hr hd, step_of_data_unmapped order hr hd,
      fun mapped => exists_step_of_canStep (canStep_of_data_mapped order hr hd mapped)⟩⟩

/-- Settles O49: the refusals and the faults among the outcomes of a step. -/
theorem stopReasonsAreClosed : Obligations.StopReasonsAreClosed := by
  constructor
  · intro s q h
    have outcome := stepOutcome_step s
    rw [h] at outcome
    cases outcome with
    | pcMisaligned h4 => exact .inl ⟨rfl, h4⟩
    | pcOverflow hlast => exact .inr (.inl ⟨rfl, hlast⟩)
    | undecoded e hr hd =>
      refine .inr (.inr ⟨_, hr, ?_⟩)
      cases e with
      | notInSpec => exact .inl ⟨rfl, hd⟩
      | reservedRc => exact .inr (.inl ⟨rfl, hd⟩)
      | invalidForm => exact .inr (.inr (.inl ⟨rfl, hd⟩))
    | pastTop hr hd top => exact .inr (.inr ⟨_, hr, .inr (.inr (.inr ⟨rfl, _, hd, top⟩))⟩)
  · intro s f h
    have outcome := stepOutcome_step s
    rw [h] at outcome
    cases outcome with
    | runOver hend => exact .inl ⟨rfl, hend⟩
    | fetchUnmapped hu => exact .inr (.inl ⟨rfl, hu⟩)
    | dataUnmapped hr hd hu => exact .inr (.inr ⟨_, _, hr, hd, rfl, hu⟩)

/-- Settles O50: completion is the one outcome of a step that is a next state. -/
theorem stepCompletesExactlyWhenItCan : Obligations.StepCompletesExactlyWhenItCan := by
  refine fun s => ⟨fun ⟨t, h⟩ => ?_, exists_step_of_canStep⟩
  have outcome := stepOutcome_step s
  rw [h] at outcome
  cases outcome with
  | next _ can => exact can

/-! ### What every step keeps (10_state.md R24, R28; 70_reset_and_hazards.md R130, R132) -/

/-- Settles O51: equal memories read alike. -/
theorem stepKeepsLaunchArguments : Obligations.StepKeepsLaunchArguments := by
  intro s t h
  obtain ⟨hmem, hend, hmode⟩ := step_launchArguments h
  exact ⟨hmem, fun a => by rw [hmem], hend, hmode⟩

/-- Settles O52: memory and `END_PC` stand, and `pc` advances by 4 without wrapping. -/
theorem stepKeepsTheInvariant : Obligations.StepKeepsTheInvariant := by
  intro s t inv h
  obtain ⟨hmem, hend, -⟩ := step_launchArguments h
  have hpc := toNat_pc_of_step h
  have aligned := inv.pcAligned
  exact ⟨hmem ▸ inv.memCanonical, by omega, hend ▸ inv.endAligned⟩

/-- Settles O53: nothing is listed at reset, and both addresses are multiples of 4. -/
theorem resetMeetsTheInvariant : Obligations.ResetMeetsTheInvariant :=
  ⟨memory_wf_reset, by decide, by decide⟩

end Sys2Proof.Machine
